-- ==== Sys2Proof/Word.lean ====
section
/-! DEFINITION. The machine's word, byte and codec carrier.
00_scope.md R7, R9, R10: words, addresses and the program counter are unsigned 32-bit values, the bit-field
codec works on a 64-bit carrier, a console or image byte has 8 bits. -/

namespace Sys2Proof

/-- A 32-bit unsigned word (R7, R10): register, memory word, segment id, offset, program counter. -/
abbrev Word := BitVec 32

/-- An 8-bit byte (R7): of the program image and of the console. -/
abbrev Byte := BitVec 8

/-- The 64-bit carrier of the bit-field codec (R7, R80). Signed codec values are read from it by
two's complement. -/
abbrev Carrier := BitVec 64

end Sys2Proof
end

