-- ==== Sys2Proof/Machine/FaultKinds.lean ====
section
/-! DEFINITION. The faults the block can raise, with what each records (60_exceptions.md R116 to R126), and their
numeric codes (R116, the spec's decision D5). These are the block's own faults: raising one is a state change of the
machine (R128), not an outcome of the model's `step`. -/

namespace Sys2Proof.Machine

/-- The ten fault kinds of R116. -/
inductive FaultKind where
  | decodeError
  | invalidRegisterError
  | segmentFault
  | divisionByZeroError
  | overflowError
  | malformedImageError
  | ioUnavailableError
  | outputRangeError
  | allocationFailure
  | codecArgumentError
deriving DecidableEq, Repr

/-- The four sub-reasons of SegmentFault (R116, R119), with the id and, for an offset, the offset. -/
inductive SegmentReason where
  /-- access to an id that is unmapped or nonexistent (R42) -/
  | unmappedSegment (id : Word)
  /-- offset at or beyond the segment's length, a fetch included (R44, R45, R103) -/
  | offsetOutOfRange (id offset : Word)
  /-- Unmap of id 0 (R49) -/
  | unmapSegmentZero (id : Word)
  /-- Unmap of an id not currently mapped (R49) -/
  | doubleUnmap (id : Word)
deriving DecidableEq, Repr

/-- A fault as a rule raises it: `raise K(info)` (00_scope.md R11), the kind with its information. -/
inductive Raised where
  /-- R117: the opcode, 14 or 15 -/
  | decodeError (op : Nat)
  /-- R118: the register index above 7 -/
  | invalidRegister (index : Nat)
  /-- R119 -/
  | segmentFault (reason : SegmentReason)
  /-- R120 -/
  | divisionByZero
  /-- R121: the value that does not fit, and the field's width -/
  | overflow (value : Int) (width : Nat)
  /-- R122: the image's byte count -/
  | malformedImage (length : Nat)
  /-- R123 -/
  | ioUnavailable
  /-- R124: the value above 255 -/
  | outputRange (value : Word)
  /-- R125: the number of words asked for -/
  | allocationFailure (words : Nat)
  /-- R126: the width and offset outside the domain -/
  | codecArgument (width lsb : Nat)
deriving DecidableEq, Repr

/-- The kind of a raised fault (R116). -/
def Raised.kind : Raised → FaultKind
  | .decodeError _ => .decodeError
  | .invalidRegister _ => .invalidRegisterError
  | .segmentFault _ => .segmentFault
  | .divisionByZero => .divisionByZeroError
  | .overflow _ _ => .overflowError
  | .malformedImage _ => .malformedImageError
  | .ioUnavailable => .ioUnavailableError
  | .outputRange _ => .outputRangeError
  | .allocationFailure _ => .allocationFailure
  | .codecArgument _ _ => .codecArgumentError

/-- The numeric code of a kind (R116; the spec's decision D5). -/
def FaultKind.code : FaultKind → Nat
  | .decodeError => 1
  | .invalidRegisterError => 2
  | .segmentFault => 3
  | .divisionByZeroError => 4
  | .overflowError => 5
  | .malformedImageError => 6
  | .ioUnavailableError => 7
  | .outputRangeError => 8
  | .allocationFailure => 9
  | .codecArgumentError => 10

/-- The numeric code of a SegmentFault's sub-reason (R116). -/
def SegmentReason.code : SegmentReason → Nat
  | .unmappedSegment _ => 1
  | .offsetOutOfRange _ _ => 2
  | .unmapSegmentZero _ => 3
  | .doubleUnmap _ => 4

/-- The sub-reason's code, "where the kind has one" (10_state.md R32). -/
def Raised.subReason : Raised → Option Nat
  | .segmentFault r => some r.code
  | _ => none

end Sys2Proof.Machine
end

