-- ==== Sys2Proof/Machine/Codec.lean ====
section
/-! DEFINITION. The bit-field codec (30_encoding.md section 5, R80 to R88): extractor and inserter of variable-width
fields on a 64-bit carrier. The decoder, the encoder and the word assembler are built on it (R68, R89,
20_memory.md R60).

Each codec function is a domain check (R80) around a total body. Shifts are logical and give 0 from 64 on (R87),
which is what shifting a `BitVec 64` by a natural number does. A signed value is a carrier read by two's complement. -/

namespace Sys2Proof.Machine.Codec

/-- The argument domain (R80): `w <= 64` and `lsb + w <= 64`. -/
def inDomain (w lsb : Nat) : Bool :=
  decide (w ≤ 64) && decide (lsb + w ≤ 64)

/-- The body of a codec function inside its domain; outside it, CodecArgumentError (R80, R126). -/
def guarded {α : Type} (w lsb : Nat) (body : Except Raised α) : Except Raised α :=
  if inDomain w lsb then body else .error (.codecArgument w lsb)

/-- `2^w - 1` on the carrier; all ones for `w = 64` (R87). -/
def mask (w : Nat) : Carrier :=
  (1#64 <<< w) - 1#64

/-- FitsU inside its domain (R81). -/
def fitsUBody (v : Carrier) (w : Nat) : Bool :=
  if w = 64 then true else decide (v.toNat < 2 ^ w)

/-- FitsS inside its domain (R82). -/
def fitsSBody (v : Carrier) (w : Nat) : Bool :=
  if w = 0 then decide (v.toInt = 0)
  else if w = 64 then true
  else decide (-(2 : Int) ^ (w - 1) ≤ v.toInt) && decide (v.toInt < (2 : Int) ^ (w - 1))

/-- GetU inside its domain (R83). -/
def getUBody (word : Carrier) (w lsb : Nat) : Carrier :=
  if w = 0 then 0#64 else (word >>> lsb) &&& mask w

/-- GetS inside its domain (R84): `u - 2^w` when the field's top bit is set. -/
def getSBody (word : Carrier) (w lsb : Nat) : Carrier :=
  if w = 0 then 0#64
  else if (getUBody word w lsb).getLsbD (w - 1) then getUBody word w lsb - (1#64 <<< w)
  else getUBody word w lsb

/-- SetU on a value that fits (R85). -/
def setUBody (word : Carrier) (w lsb : Nat) (v : Carrier) : Carrier :=
  if w = 0 then word
  else (word &&& ~~~(mask w <<< lsb)) ||| (v <<< lsb)

/-- `FitsU(v, w)` (R81). It takes no `lsb`; outside the domain the fault records 0 for it (log 8). -/
def fitsU (v : Carrier) (w : Nat) : Except Raised Bool :=
  guarded w 0 (.ok (fitsUBody v w))

/-- `FitsS(v, w)` (R82). It takes no `lsb`; outside the domain the fault records 0 for it (log 8). -/
def fitsS (v : Carrier) (w : Nat) : Except Raised Bool :=
  guarded w 0 (.ok (fitsSBody v w))

/-- `GetU(word, w, lsb)` (R83). -/
def getU (word : Carrier) (w lsb : Nat) : Except Raised Carrier :=
  guarded w lsb (.ok (getUBody word w lsb))

/-- `GetS(word, w, lsb)` (R84). -/
def getS (word : Carrier) (w lsb : Nat) : Except Raised Carrier :=
  guarded w lsb (.ok (getSBody word w lsb))

/-- `SetU(word, w, lsb, v)` (R85): the domain check comes before the fits check (log 8). -/
def setU (word : Carrier) (w lsb : Nat) (v : Carrier) : Except Raised Carrier :=
  guarded w lsb
    (if fitsUBody v w then .ok (setUBody word w lsb v)
     else .error (.overflow (v.toNat : Int) w))

/-- `SetS(word, w, lsb, v)` (R86): SetU of the low `w` bits of `v`'s two's-complement pattern. -/
def setS (word : Carrier) (w lsb : Nat) (v : Carrier) : Except Raised Carrier :=
  guarded w lsb
    (if fitsSBody v w then
      (if w = 0 then .ok word else setU word w lsb (v &&& mask w))
     else .error (.overflow v.toInt w))

end Sys2Proof.Machine.Codec
end

