-- ==== Sys2Proof/Syntax.lean ====
section
/-! DEFINITION. The instruction set's abstract syntax: one constructor per row of spec/opcode_table.json
(30_encoding.md R73), with the fields that row uses (R70).

A register field is a natural number, not a 3-bit value, so that the index check the document asks for (R17, R72,
R118) has a meaning in the model; `Instr.wellFormed` (WellFormed.lean) bounds it by 7. The literal is the 25-bit
field itself (R66, R69). -/

namespace Sys2Proof

/-- The 14 instructions (R2, R73). Operands stand in the order of the assembler syntax (R79). -/
inductive Instr where
  /-- opcode 0, Conditional Move (R90) -/
  | cmov (a b c : Nat)
  /-- opcode 1, Segment Load (R97) -/
  | sload (a b c : Nat)
  /-- opcode 2, Segment Store (R98) -/
  | sstore (a b c : Nat)
  /-- opcode 3, Add (R91) -/
  | add (a b c : Nat)
  /-- opcode 4, Multiply (R92) -/
  | mul (a b c : Nat)
  /-- opcode 5, Divide (R93) -/
  | div (a b c : Nat)
  /-- opcode 6, NAND (R94) -/
  | nand (a b c : Nat)
  /-- opcode 7, Halt (R105) -/
  | halt
  /-- opcode 8, Map Segment (R99) -/
  | map (b c : Nat)
  /-- opcode 9, Unmap Segment (R100) -/
  | unmap (c : Nat)
  /-- opcode 10, Output (R112) -/
  | out (c : Nat)
  /-- opcode 11, Input (R113); the mnemonic `in` is a word of Lean -/
  | inp (c : Nat)
  /-- opcode 12, Load Program (R106) -/
  | loadp (b c : Nat)
  /-- opcode 13, Load Immediate (R95) -/
  | loadi (a : Nat) (literal : BitVec 25)
deriving DecidableEq, Repr

end Sys2Proof
end

