-- ==== Sys2Proof/WellFormed.lean ====
section
/-! DEFINITION. Which instruction terms an instruction word can hold: every register index is at most 7
(30_encoding.md R72; 10_state.md R17). The literal needs no check, its type has the field's 25 bits (R66). -/

namespace Sys2Proof

/-- The register indices an instruction uses, in the order `a`, `b`, `c` (R70). -/
def Instr.registers : Instr → List Nat
  | .cmov a b c => [a, b, c]
  | .sload a b c => [a, b, c]
  | .sstore a b c => [a, b, c]
  | .add a b c => [a, b, c]
  | .mul a b c => [a, b, c]
  | .div a b c => [a, b, c]
  | .nand a b c => [a, b, c]
  | .halt => []
  | .map b c => [b, c]
  | .unmap c => [c]
  | .out c => [c]
  | .inp c => [c]
  | .loadp b c => [b, c]
  | .loadi a _ => [a]

/-- "Register-index fields are validated to be ≤7 before use" (R72). -/
def Instr.wellFormed (i : Instr) : Bool :=
  i.registers.all (fun r => decide (r ≤ 7))

end Sys2Proof
end

