-- ==== Sys2Proof/Decode.lean ====
section
/-! DEFINITION. The instruction decoder (30_encoding.md R64 to R77), and after it the encoder (R89) and the
assembler notation (R78, R79).

Decoding has the document's two stages: field extraction, which never faults (R68), and the choice of the
operation by the opcode (R73), where opcodes 14 and 15 are a DecodeError (R75). -/

namespace Sys2Proof

open Machine (Raised)
open Machine.Codec (getU setU)

/-- The field tuple the decoder extracts (R68). -/
inductive Fields where
  | formS (op a b c : Nat)
  | formI (op a : Nat) (literal : BitVec 25)
deriving DecidableEq, Repr

/-- `Decode(word)` (R68): the format is chosen by the opcode alone (R67). -/
def decodeFields (word : Word) : Except Raised Fields := do
  let w64 : Carrier := word.zeroExtend 64
  let op ← getU w64 4 28
  if op = 13 then
    let a ← getU w64 3 25
    let literal ← getU w64 25 0
    return .formI op.toNat a.toNat (literal.truncate 25)
  else
    let a ← getU w64 3 6
    let b ← getU w64 3 3
    let c ← getU w64 3 0
    return .formS op.toNat a.toNat b.toNat c.toNat

/-- Dispatch's choice of the operation (R73), with the fields that operation uses (R70). The 16 opcode values are the
14 instructions and the 2 illegal values (R76). -/
def Fields.instr : Fields → Except Raised Instr
  | .formI _ a literal => .ok (.loadi a literal)
  | .formS 0 a b c => .ok (.cmov a b c)
  | .formS 1 a b c => .ok (.sload a b c)
  | .formS 2 a b c => .ok (.sstore a b c)
  | .formS 3 a b c => .ok (.add a b c)
  | .formS 4 a b c => .ok (.mul a b c)
  | .formS 5 a b c => .ok (.div a b c)
  | .formS 6 a b c => .ok (.nand a b c)
  | .formS 7 _ _ _ => .ok .halt
  | .formS 8 _ b c => .ok (.map b c)
  | .formS 9 _ _ c => .ok (.unmap c)
  | .formS 10 _ _ c => .ok (.out c)
  | .formS 11 _ _ c => .ok (.inp c)
  | .formS 12 _ b c => .ok (.loadp b c)
  | .formS op _ _ _ => .error (.decodeError op)

/-- The decoder: total on every 32-bit word; it rejects exactly the words with opcode 14 or 15, by DecodeError
(R74, R75). -/
def decode (word : Word) : Except Raised Instr := do
  (← decodeFields word).instr

/-- The decoder on a row of the opcode table: bit 0 of `w` is the word's bit 0, and every bit above `nbits` is 0. An
instruction is exactly one 32-bit word (R64). -/
def decodeTableWord (nbits w : Nat) : Option Instr :=
  if nbits ≤ 32 then (decode (BitVec.ofNat 32 w)).toOption else none

/-! ### Encoder -/

/-- The opcode of an instruction (R73). -/
def Instr.opcode : Instr → Nat
  | .cmov _ _ _ => 0
  | .sload _ _ _ => 1
  | .sstore _ _ _ => 2
  | .add _ _ _ => 3
  | .mul _ _ _ => 4
  | .div _ _ _ => 5
  | .nand _ _ _ => 6
  | .halt => 7
  | .map _ _ => 8
  | .unmap _ => 9
  | .out _ => 10
  | .inp _ => 11
  | .loadp _ _ => 12
  | .loadi _ _ => 13

/-- SetU of a number: one of 2^64 or more is no carrier value and fits no field (R81, R85). -/
def insertField (word : Carrier) (w lsb v : Nat) : Except Raised Carrier :=
  if v < 2 ^ 64 then setU word w lsb (BitVec.ofNat 64 v) else .error (.overflow (v : Int) w)

/-- `EncodeS(op, a, b, c)` (R89). -/
def encodeS (op a b c : Nat) : Except Raised Word := do
  let w ← insertField 0 4 28 op
  let w ← insertField w 3 6 a
  let w ← insertField w 3 3 b
  let w ← insertField w 3 0 c
  return w.truncate 32

/-- `EncodeI(a, literal)` (R89). -/
def encodeI (a : Nat) (literal : BitVec 25) : Except Raised Word := do
  let w ← insertField 0 4 28 13
  let w ← insertField w 3 25 a
  let w ← insertField w 25 0 literal.toNat
  return w.truncate 32

/-- The word of an instruction, 0 in every field and bit it does not use (R78, R89); an index that does not fit its
field is refused by OverflowError, not truncated. -/
def encode : Instr → Except Raised Word
  | .cmov a b c => encodeS 0 a b c
  | .sload a b c => encodeS 1 a b c
  | .sstore a b c => encodeS 2 a b c
  | .add a b c => encodeS 3 a b c
  | .mul a b c => encodeS 4 a b c
  | .div a b c => encodeS 5 a b c
  | .nand a b c => encodeS 6 a b c
  | .halt => encodeS 7 0 0 0
  | .map b c => encodeS 8 0 b c
  | .unmap c => encodeS 9 0 0 c
  | .out c => encodeS 10 0 0 c
  | .inp c => encodeS 11 0 0 c
  | .loadp b c => encodeS 12 0 b c
  | .loadi a literal => encodeI a literal

/-! ### Assembler notation (the spec's own, D13; it carries no meaning) -/

/-- The mnemonic of an instruction (R73). -/
def Instr.mnemonic : Instr → String
  | .cmov _ _ _ => "cmov"
  | .sload _ _ _ => "sload"
  | .sstore _ _ _ => "sstore"
  | .add _ _ _ => "add"
  | .mul _ _ _ => "mul"
  | .div _ _ _ => "div"
  | .nand _ _ _ => "nand"
  | .halt => "halt"
  | .map _ _ => "map"
  | .unmap _ => "unmap"
  | .out _ => "out"
  | .inp _ => "in"
  | .loadp _ _ => "loadp"
  | .loadi _ _ => "loadi"

/-- One line of assembler text (R78, R79): the mnemonic, then the operands the instruction uses in the order
`a`, `b`, `c`, or `rA, literal`. -/
def Instr.assembly (i : Instr) : String :=
  let names := i.registers.map (fun r => "r" ++ toString r)
  let operands :=
    match i with
    | .loadi _ literal => names ++ [toString literal.toNat]
    | _ => names
  if operands.isEmpty then i.mnemonic else i.mnemonic ++ " " ++ ", ".intercalate operands

end Sys2Proof
end

