-- ==== Sys2Proof/Config.lean ====
section
/-! DEFINITION. What a host or a platform fixes and the spec leaves open (00_scope.md R8, R15; 10_state.md R34).
Each open parameter is a constant WITHOUT a body: no proof can see a value of it, so what is proved holds for every
value. notes/assumptions/1.md to 4.md and 6.md say what each stands for. -/

namespace Sys2Proof

/-- One poll of the console input (43_io.md R110): the host's answer, or no answer yet (00_scope.md R14 (d)). -/
inductive ConsoleReply where
  /-- `Byte(v)` -/
  | byte (v : Byte)
  /-- `EndOfStream` -/
  | endOfStream
  /-- the host has not answered: the block goes on waiting (R113, R152) -/
  | noAnswer
deriving DecidableEq, Repr, Inhabited

/-- The host's answer to `load_program_bytes` (70_reset_and_hazards.md R144). -/
inductive ImageAnswer where
  /-- the image source cannot be opened (R123) -/
  | failure
  /-- the whole image, as a finite byte sequence -/
  | image (bytes : List Byte)
deriving DecidableEq, Repr, Inhabited

/-- `TRAILING_BYTES_POLICY` (20_memory.md R62; D10). -/
inductive TrailingPolicy where
  /-- a final group of 1 to 3 bytes is a MalformedImageError (the document's mandate) -/
  | fault
  /-- a final group of 1 to 3 bytes is discarded (the reference implementation) -/
  | drop
deriving DecidableEq, Repr, Inhabited

/-- `CAN_ALLOCATE(live_words, n)` (R8; D8, OPEN): whether the store can supply `n` more words when mapped segments
already hold `live_words`. DESIGN CHOICE, log 1. -/
opaque Config.canAllocate : Nat → Nat → Bool

/-- The answer to the `k`-th poll of the console that no placed answer settles: "a draw, free for every Input and
under no law" (R114; D17, OPEN). DESIGN CHOICE, log 2. -/
opaque Config.consoleReply : Nat → ConsoleReply

/-- The answer to `load_program_bytes` where the state places none (R144). DESIGN CHOICE, log 3. -/
opaque Config.imageAnswer : ImageAnswer

/-- What the platform has set `TRAILING_BYTES_POLICY` to, none where it has set nothing (D10, OPEN). The default that
then holds is `trailingBytesPolicy`'s (Machine/Loader.lean). DESIGN CHOICE, log 4. -/
opaque Config.trailingBytesSetting : Option TrailingPolicy

/-- The word from which the exit status of a fault kind is made (log 6). -/
opaque Config.failExitWord : Machine.FaultKind → Word

/-- `FAIL_EXIT_CODE(K)`, "a claim may assume only that it is non-zero" (R8, R142; D14, OPEN): every non-zero word is
possible for every kind. DESIGN CHOICE, log 6. -/
def Config.failExitCode (k : Machine.FaultKind) : Word :=
  if Config.failExitWord k = 0 then 1 else Config.failExitWord k

end Sys2Proof
end

