-- ==== Sys2Proof/Machine/State.lean ====
section
/-! DEFINITION. The state of the block as plain data (10_state.md), the outcomes' reasons, and reset.
INVENTORY.md's '## State' lists every field with its rule and its reset value. -/

namespace Sys2Proof.Machine

/-- A mapped segment's words (10_state.md R28): its length and its non-zero words as (offset, value). An offset below
the length that is not listed reads 0, as every newly allocated word does (20_memory.md R47, R48). `Segment.wf`
(Machine/Ops.lean) is the canonical form. -/
structure Segment where
  len : Word
  cells : List (Nat × Word)
deriving DecidableEq, Repr

/-- One slot of the segment store (R28, R29). An unmapped slot holds no words. -/
inductive Slot where
  | unmapped
  | mapped (segment : Segment)
deriving DecidableEq, Repr

/-- The run status (R27). -/
inductive Status where
  | loading
  | running
  | terminated
  | faulted
deriving DecidableEq, Repr

/-- The fault record (R32, R128): the fault with its sub-reason and information, the address of the faulting
instruction (absent at image load) and its word (absent at image load and at a fetch fault). -/
structure FaultRecord where
  raised : Raised
  addr : Option Word
  word : Option Word
deriving DecidableEq, Repr

/-- The address `A` and the word of the instruction in progress (42_control.md R102); the word is absent while the
fetch has not delivered it. -/
structure InFlight where
  addr : Word
  word : Option Word
deriving DecidableEq, Repr

/-- The state of the block (R16 to R33), and after it what the host has placed for the block or received from it. -/
structure State where
  /-- `x[0]` .. `x[7]` (R16) -/
  regs : Vector Word 8
  /-- `pc` (R20) -/
  pc : Word
  /-- `status` (R27) -/
  status : Status
  /-- the slots `0 .. N - 1` (R28): the list's length is `N` -/
  slots : List Slot
  /-- the free-id pool (R28), top FIRST (log 10) -/
  free : List Word
  /-- the fault record (R32) -/
  fault : Option FaultRecord
  /-- the MODEL's own: the instruction in progress; between steps none, unless an Input waits (log 5) -/
  inFlight : Option InFlight
  /-- the MODEL's own: the answer the host has placed for `load_program_bytes`, if any (log 3) -/
  imageSource : Option ImageAnswer
  /-- the MODEL's own: the answers the host has placed for the next polls of the console input (log 2) -/
  consoleIn : List ConsoleReply
  /-- the MODEL's own: how many polls of the console input there have been (log 2) -/
  consolePolls : Nat
  /-- the MODEL's own: the destination of the Input that waits for the host's answer, if one does (00_scope.md R14 (d);
  log 2) -/
  waiting : Option (Fin 8)
  /-- the output log (43_io.md R111), oldest byte first -/
  output : List Byte
deriving DecidableEq, Repr

/-- Reset (10_state.md R35; 70_reset_and_hazards.md R143): every register 0, `pc = 0`, Loading, one slot, mapped and
empty, an empty pool, no fault record. Nothing has been output, no Input waits and the host has placed no answer. -/
def State.reset : State where
  regs := Vector.replicate 8 0
  pc := 0
  status := .loading
  slots := [.mapped ⟨0, []⟩]
  free := []
  fault := none
  inFlight := none
  imageSource := none
  consoleIn := []
  consolePolls := 0
  waiting := none
  output := []

/-- Why `step` stops. The block's own faults are NOT here: raising one is a next state (R128). -/
inductive Fault where
  /-- Raised by `step` in status Terminated: "Terminated and Faulted take no further step" (R14). Safe: the spec says
  the run has ended. -/
  | runTerminated
  /-- Raised by `step` in status Faulted (R14, R131). Safe: the spec says the run has ended. -/
  | runFaulted
deriving DecidableEq, Repr

/-- Why an instruction has no meaning. -/
inductive Refusal where
  /-- Raised by an arm of `exec` whose instruction has no meaning yet; no arm of this model does. Safe. -/
  | notModelled (mnemonic : String)
deriving DecidableEq, Repr

end Sys2Proof.Machine
end

