-- ==== Sys2Proof/Machine/Ops.lean ====
section
/-! DEFINITION. The named operations over registers, the segment store, the console and the run status: every meaning
is written with these. The last section is fault entry (60_exceptions.md R128), ONE shared operation. Nothing returns
from a fault (R131), so no operation does. -/

namespace Sys2Proof.Machine

/-! ### Registers and the program counter -/

/-- `read(i)` for an index the register file has (10_state.md R17). -/
def State.reg (s : State) (r : Fin 8) : Word := s.regs[r]

/-- `write(i, word)` for an index the register file has (R17): no other register changes ("No aliasing between slots"). -/
def State.setReg (s : State) (r : Fin 8) (v : Word) : State := { s with regs := s.regs.set r v }

/-- `pc <- target` (00_scope.md R11). -/
def State.setPc (s : State) (v : Word) : State := { s with pc := v }

/-! ### Cells: the non-zero words of a segment -/

/-- The word at an offset: the listed one, else 0 (20_memory.md R47, R48). -/
def Cells.get : List (Nat × Word) → Nat → Word
  | [], _ => 0
  | (k, v) :: rest, o => if k = o then v else Cells.get rest o

/-- Writes a word, keeping the offsets strictly rising and listing no 0. -/
def Cells.set : List (Nat × Word) → Nat → Word → List (Nat × Word)
  | [], o, w => if w = 0 then [] else [(o, w)]
  | (k, v) :: rest, o, w =>
    if o < k then (if w = 0 then (k, v) :: rest else (o, w) :: (k, v) :: rest)
    else if o = k then (if w = 0 then rest else (o, w) :: rest)
    else (k, v) :: Cells.set rest o w

/-- The cells of consecutive words, the first at offset `o`. -/
def Cells.ofWords : Nat → List Word → List (Nat × Word)
  | _, [] => []
  | o, w :: rest => if w = 0 then Cells.ofWords (o + 1) rest else (o, w) :: Cells.ofWords (o + 1) rest

/-! ### Segments -/

/-- The canonical form of a segment: offsets strictly rising and below the length, no listed word 0. -/
def Segment.wf (g : Segment) : Bool :=
  decide (g.cells.Pairwise (fun p q => p.1 < q.1)) &&
    g.cells.all (fun p => decide (p.1 < g.len.toNat) && p.2 != 0)

/-- `n` words, each 0 (R47). -/
def Segment.zeros (n : Word) : Segment := ⟨n, []⟩

/-- The segment holding a list of fewer than 2^32 words. -/
def Segment.ofWords (ws : List Word) : Segment := ⟨BitVec.ofNat 32 ws.length, Cells.ofWords 0 ws⟩

/-- The word at an offset below the length (R44). -/
def Segment.get (g : Segment) (o : Word) : Word := Cells.get g.cells o.toNat

/-- Writes the word at an offset; the length is unchanged (R45). -/
def Segment.set (g : Segment) (o w : Word) : Segment := { g with cells := Cells.set g.cells o.toNat w }

/-- A slot's canonical form. -/
def Slot.wf : Slot → Bool
  | .unmapped => true
  | .mapped g => g.wf

/-- The canonical form of the whole segment memory: equal memories are equal lists. -/
def Memory.wf (slots : List Slot) : Bool := slots.all Slot.wf

/-! ### The segment store -/

/-- `N`, the slot count (10_state.md R28). -/
def State.slotCount (s : State) : Nat := s.slots.length

/-- The mapped segment of an id, if the id names one. -/
def State.segment? (s : State) (id : Word) : Option Segment :=
  match s.slots[id.toNat]? with
  | some (.mapped g) => some g
  | _ => none

/-- Puts a slot in a state (10_state.md R29). -/
def State.setSlot (s : State) (id : Word) (slot : Slot) : State :=
  { s with slots := s.slots.set id.toNat slot }

/-- Appends a slot, whose id is the old `N` (10_state.md R29). -/
def State.addSlot (s : State) (slot : Slot) : State := { s with slots := s.slots ++ [slot] }

/-- Sets the free-id pool. -/
def State.setFree (s : State) (ids : List Word) : State := { s with free := ids }

/-- `Lookup(s)` (20_memory.md R42): an unmapped and a nonexistent id fault alike. -/
def lookup (s : State) (id : Word) : Except Raised Segment :=
  match s.segment? id with
  | some g => .ok g
  | none => .error (.segmentFault (.unmappedSegment id))

/-- `MemRead((s, o), 1)` (R44). -/
def memRead (s : State) (id o : Word) : Except Raised Word := do
  let g ← lookup s id
  if o < g.len then .ok (g.get o) else .error (.segmentFault (.offsetOutOfRange id o))

/-- `MemWrite((s, o), 1, v)` (R45). -/
def memWrite (s : State) (id o v : Word) : Except Raised State := do
  let g ← lookup s id
  if o < g.len then .ok (s.setSlot id (.mapped (g.set o v)))
  else .error (.segmentFault (.offsetOutOfRange id o))

/-- The words a slot holds (R47). -/
def Slot.words : Slot → Nat
  | .unmapped => 0
  | .mapped g => g.len.toNat

/-- `live_words`: the sum of `len(t)` over every Mapped slot (R47). -/
def State.liveWords (s : State) : Nat := (s.slots.map Slot.words).sum

/-- `len(0)` (R46), read afresh at each use (R58). Slot 0 is always mapped (10_state.md R29, `State.Inv`); in a state
that no run reaches it reads 0. -/
def State.programLength (s : State) : Word :=
  match s.segment? 0 with
  | some g => g.len
  | none => 0

/-- `Allocate(n)` (R47), with the capacity parameter `can`: the capacity check, then the most recently released id, else
a new slot; a fault when no 32-bit id is left. Answers the id and the state. -/
def allocate (can : Nat → Nat → Bool) (n : Word) (s : State) : Except Raised (Word × State) :=
  if can s.liveWords n.toNat = false then .error (.allocationFailure n.toNat)
  else
    match s.free with
    | id :: rest => .ok (id, (s.setSlot id (.mapped (.zeros n))).setFree rest)
    | [] =>
      if s.slotCount = 2 ^ 32 then .error (.allocationFailure n.toNat)
      else .ok (BitVec.ofNat 32 s.slotCount, s.addSlot (.mapped (.zeros n)))

/-- `Release(s)` (R49): id 0 and an id not currently mapped fault; the words are gone, the id is on top of the pool. -/
def release (id : Word) (s : State) : Except Raised State :=
  if id = 0 then .error (.segmentFault (.unmapSegmentZero id))
  else
    match s.segment? id with
    | some _ => .ok ((s.setSlot id .unmapped).setFree (id :: s.free))
    | none => .error (.segmentFault (.doubleUnmap id))

/-- `ReplaceProgram(s)` (R51): segment 0 becomes a copy of segment `id`; "copying onto itself is elided". Segments are
values, so the copy is deep (R52). -/
def replaceProgram (can : Nat → Nat → Bool) (id : Word) (s : State) : Except Raised State :=
  if id = 0 then .ok s
  else do
    let g ← lookup s id
    if can (s.liveWords - s.programLength.toNat) g.len.toNat = false then
      .error (.allocationFailure g.len.toNat)
    else .ok (s.setSlot 0 (.mapped g))

/-! ### The console (43_io.md R110) -/

/-- The reply the next poll of the console input gets: the one the host has placed, else a draw (R114; log 2). -/
def State.consoleReply (s : State) : ConsoleReply :=
  match s.consoleIn with
  | r :: _ => r
  | [] => Config.consoleReply s.consolePolls

/-- A poll of the console input uses its reply up; a wait for it is over. -/
def State.polled (s : State) : State :=
  { s with consoleIn := s.consoleIn.tail, consolePolls := s.consolePolls + 1, waiting := none }

/-- The Input that writes `x[r]` waits for the host's answer (00_scope.md R14 (d), R113). -/
def State.wait (s : State) (r : Fin 8) : State := { s with waiting := some r }

/-- `ConsoleWrite(b)` (R110, R111): the byte joins the end of the output log. -/
def State.consoleWrite (s : State) (b : Byte) : State := { s with output := s.output ++ [b] }

/-! ### Fault entry and the end of a run -/

/-- Fault entry (60_exceptions.md R128): the record is written, the status becomes Faulted, nothing else changes (R129,
R130). The record takes `A` and the word from the instruction in progress, which ends here. -/
def State.raiseFault (s : State) (f : Raised) : State :=
  { s with
    status := .faulted
    fault := some ⟨f, s.inFlight.map (·.addr), s.inFlight.bind (·.word)⟩
    inFlight := none }

/-- What an operation leaves: its state, or, where it raises a fault, the state it started from with the fault entered
(R130: a faulting instruction has made no change). -/
def State.settle (s : State) : Except Raised State → State
  | .ok t => t
  | .error f => s.raiseFault f

/-- The outcome of an operation: always a next state, since entering Faulted is one (R14 (c), R128). -/
def attempt (s : State) (r : Except Raised State) : Host.Outcome State Fault Refusal :=
  .next (s.settle r)

/-- The exit status the host sees (R142): 0 for Terminated, `FAIL_EXIT_CODE(K)` for Faulted with kind `K`; a run that
has done neither reports nothing. -/
def State.exitStatus (s : State) : Option Word :=
  match s.status with
  | .terminated => some 0
  | .faulted => s.fault.map (fun r => Config.failExitCode r.raised.kind)
  | _ => none

end Sys2Proof.Machine
end

