-- ==== Sys2Proof/Machine/Controller.lean ====
section
/-! DEFINITION. The pc controller's stages around the operation (42_control.md R102): fetch, advance, and the
termination check. -/

namespace Sys2Proof.Machine

/-- Stage 1, fetch (R103): the word at offset `pc` of the current segment 0. -/
def fetch (s : State) : Except Raised Word := memRead s 0 s.pc

/-- The state in which the fetch of the instruction at `A = pc` runs: what a fetch fault records (R129: `pc` is `A`). -/
def State.fetching (s : State) : State := { s with inFlight := some ⟨s.pc, none⟩ }

/-- Stage 3, advance (R102): `pc <- A + 1`, "before dispatch". The record of a fault from here on names `A` and the
word. -/
def State.advance (s : State) (word : Word) : State :=
  { s with inFlight := some ⟨s.pc, some word⟩, pc := s.pc + 1 }

/-- Stage 5 (R104): the instruction is over; "If `pc == length_of(0)`, terminate normally", against the length as it is
now. A step that entered Faulted makes no check (R128), and neither does one that waits inside an Input: the instruction
has not completed (R113). -/
def State.finish (s : State) : State :=
  match s.status, s.waiting with
  | .running, none =>
    { s with
      inFlight := none
      status := if s.pc = s.programLength then .terminated else .running }
  | _, _ => s

/-- The state with a word placed where the next fetch reads it (see `State.withFetchWord`, Machine/Step.lean, and log
9): Running, no fault record, no Input waiting, segment 0 mapped and just long enough. A `pc` of 2^32 - 1, which no segment can hold
(10_state.md R23), becomes 0. -/
def State.placeWord (s : State) (word : Word) : State :=
  let a : Word := if s.pc = 0xFFFFFFFF#32 then 0 else s.pc
  let g : Segment := (s.segment? 0).getD ⟨0, []⟩
  let g' : Segment := (if a < g.len then g else { g with len := a + 1 }).set a word
  { s with
    pc := a
    status := .running
    slots := .mapped g' :: s.slots.tail
    fault := none
    inFlight := none
    waiting := none }

end Sys2Proof.Machine
end

