-- ==== Sys2Proof/Machine/Operands.lean ====
section
/-! DEFINITION. The operand forms (30_encoding.md R69, R70): a register index, the 25-bit literal, the byte of Output
and the value of Input. There is no other operand form and no other immediate. -/

namespace Sys2Proof.Machine

/-- The check every register access makes: "`InvalidRegisterError` if `i > 7`" (10_state.md R17, R118). Each meaning
checks all its indices, in the order `a`, `b`, `c`, before anything else (60_exceptions.md R132; log 7). -/
def regIx (i : Nat) : Except Raised (Fin 8) :=
  if h : i < 8 then .ok ⟨i, h⟩ else .error (.invalidRegister i)

/-- `zext_32(literal)` (R69). -/
def literalValue (literal : BitVec 25) : Word := literal.zeroExtend 32

/-- The byte of Output, `x[c] & 0xFF` (43_io.md R112). -/
def outputByte (v : Word) : Byte := (v &&& 0xFF#32).truncate 8

/-- The value of a byte read by Input, `zext_32(r.v)` (R113). -/
def inputValue (v : Byte) : Word := v.zeroExtend 32

/-- The value Input writes on end-of-stream, all ones (R113). -/
def endOfStreamValue : Word := 0xFFFFFFFF#32

end Sys2Proof.Machine
end

