-- ==== Sys2Proof/Machine/Console.lean ====
section
/-! DEFINITION. Console input and output (43_io.md): out, in. -/

namespace Sys2Proof.Machine

/-- Output (R112): a value above 255 raises OutputRangeError and writes nothing. -/
def execOut (c : Nat) (s : State) : Host.Outcome State Fault Refusal :=
  attempt s do
    let c ← regIx c
    if 255#32 < s.reg c then .error (.outputRange (s.reg c))
    else .ok (s.consoleWrite (outputByte (s.reg c)))

/-- Input (R113). While the host has not answered, the instruction does not complete: the block waits inside it and
nothing else of it changes (R14 (d), R152; log 2). -/
def execInp (c : Nat) (s : State) : Host.Outcome State Fault Refusal :=
  attempt s do
    let c ← regIx c
    match s.consoleReply with
    | .byte v => .ok (s.polled.setReg c (inputValue v))
    | .endOfStream => .ok (s.polled.setReg c endOfStreamValue)
    | .noAnswer => .ok (s.polled.wait c)

end Sys2Proof.Machine
end

