-- ==== Sys2Proof/Machine/Control.lean ====
section
/-! DEFINITION. Control transfer (42_control.md): halt, loadp. The termination check that follows every instruction is
the pc controller's (Machine/Controller.lean). -/

namespace Sys2Proof.Machine

/-- Halt (R105): `pc <- len(0)`; the termination check then ends the run. -/
def execHalt (s : State) : Host.Outcome State Fault Refusal :=
  attempt s (.ok (s.setPc s.programLength))

/-- Load Program (R106): id 0 keeps the current program, so the instruction is a jump. -/
def execLoadp (b c : Nat) (s : State) : Host.Outcome State Fault Refusal :=
  attempt s do
    let b ← regIx b
    let c ← regIx c
    let t ← (if s.reg b = 0 then .ok s else replaceProgram Config.canAllocate (s.reg b) s)
    .ok (t.setPc (s.reg c))

end Sys2Proof.Machine
end

