-- ==== Sys2Proof/Machine/Flags.lean ====
section
/-! DEFINITION. The arithmetic results (40_register_ops.md R91 to R94, R96). The block has no flags, condition codes or
predicates (10_state.md R25), so a result is a word and nothing else: the carry of Add and the high half of Multiply
are discarded, Divide has no remainder output. -/

namespace Sys2Proof.Machine

/-- `(v + w) mod 2^32` (R91). -/
def addResult (v w : Word) : Word := v + w

/-- The low 32 bits of the unsigned product (R92). -/
def mulResult (v w : Word) : Word := v * w

/-- The unsigned quotient, rounded down, for a non-zero divisor (R93). -/
def divResult (v w : Word) : Word := v / w

/-- `~(v & w)`, 32-bit bitwise (R94). -/
def nandResult (v w : Word) : Word := ~~~(v &&& w)

end Sys2Proof.Machine
end

