-- ==== Sys2Proof/Machine/RegisterOps.lean ====
section
/-! DEFINITION. Register operations (40_register_ops.md): cmov, add, mul, div, nand, loadi. Each runs in stage 4 of the
pc controller, with `pc` already at `A + 1`. All operands are read before the one register write (00_scope.md R12). -/

namespace Sys2Proof.Machine

/-- Conditional Move (R90). -/
def execCmov (a b c : Nat) (s : State) : Host.Outcome State Fault Refusal :=
  attempt s do
    let a ← regIx a
    let b ← regIx b
    let c ← regIx c
    if s.reg c = 0 then .ok s else .ok (s.setReg a (s.reg b))

/-- Add (R91). -/
def execAdd (a b c : Nat) (s : State) : Host.Outcome State Fault Refusal :=
  attempt s do
    let a ← regIx a
    let b ← regIx b
    let c ← regIx c
    .ok (s.setReg a (addResult (s.reg b) (s.reg c)))

/-- Multiply (R92). -/
def execMul (a b c : Nat) (s : State) : Host.Outcome State Fault Refusal :=
  attempt s do
    let a ← regIx a
    let b ← regIx b
    let c ← regIx c
    .ok (s.setReg a (mulResult (s.reg b) (s.reg c)))

/-- Divide (R93): a zero divisor raises DivisionByZeroError (R120). -/
def execDiv (a b c : Nat) (s : State) : Host.Outcome State Fault Refusal :=
  attempt s do
    let a ← regIx a
    let b ← regIx b
    let c ← regIx c
    if s.reg c = 0 then .error .divisionByZero
    else .ok (s.setReg a (divResult (s.reg b) (s.reg c)))

/-- NAND (R94). -/
def execNand (a b c : Nat) (s : State) : Host.Outcome State Fault Refusal :=
  attempt s do
    let a ← regIx a
    let b ← regIx b
    let c ← regIx c
    .ok (s.setReg a (nandResult (s.reg b) (s.reg c)))

/-- Load Immediate (R95). -/
def execLoadi (a : Nat) (literal : BitVec 25) (s : State) : Host.Outcome State Fault Refusal :=
  attempt s do
    let a ← regIx a
    .ok (s.setReg a (literalValue literal))

end Sys2Proof.Machine
end

