-- ==== Sys2Proof/Machine/SegmentOps.lean ====
section
/-! DEFINITION. Segment operations (41_segment_ops.md): sload, sstore, map, unmap. A fault raised inside a segment-store
operation ends the instruction with no state changed (60_exceptions.md R130). -/

namespace Sys2Proof.Machine

/-- Segment Load (R97). -/
def execSload (a b c : Nat) (s : State) : Host.Outcome State Fault Refusal :=
  attempt s do
    let a ← regIx a
    let b ← regIx b
    let c ← regIx c
    let v ← memRead s (s.reg b) (s.reg c)
    .ok (s.setReg a v)

/-- Segment Store (R98): here `a` holds the segment id, `b` the offset, `c` the value. -/
def execSstore (a b c : Nat) (s : State) : Host.Outcome State Fault Refusal :=
  attempt s do
    let a ← regIx a
    let b ← regIx b
    let c ← regIx c
    memWrite s (s.reg a) (s.reg b) (s.reg c)

/-- Map Segment (R99): the length is read before the id is written. -/
def execMap (b c : Nat) (s : State) : Host.Outcome State Fault Refusal :=
  attempt s do
    let b ← regIx b
    let c ← regIx c
    let (id, t) ← allocate Config.canAllocate (s.reg c) s
    .ok (t.setReg b id)

/-- Unmap Segment (R100). -/
def execUnmap (c : Nat) (s : State) : Host.Outcome State Fault Refusal :=
  attempt s do
    let c ← regIx c
    release (s.reg c) s

end Sys2Proof.Machine
end

