-- ==== Sys2Proof/Machine/Loader.lean ====
section
/-! DEFINITION. The word assembler (20_memory.md R60) and image load (R61 to R63; 70_reset_and_hazards.md R144, R145). -/

namespace Sys2Proof.Machine

open Codec (setU)

/-- `AssembleWord(b0, b1, b2, b3)` (R60): most significant byte first. -/
def assembleWord (b0 b1 b2 b3 : Byte) : Except Raised Word := do
  let w ← setU 0 8 24 (b0.zeroExtend 64)
  let w ← setU w 8 16 (b1.zeroExtend 64)
  let w ← setU w 8 8 (b2.zeroExtend 64)
  let w ← setU w 8 0 (b3.zeroExtend 64)
  return w.truncate 32

/-- The image's words in order (R61); a last group of fewer than four bytes forms no word (R62). -/
def assembleWords : List Byte → Except Raised (List Word)
  | b0 :: b1 :: b2 :: b3 :: rest => do
    let w ← assembleWord b0 b1 b2 b3
    let ws ← assembleWords rest
    return w :: ws
  | _ => .ok []

/-- The host's answer to `load_program_bytes()` (R144): the one it has placed, else a free value (log 3). -/
def State.imageAnswer (s : State) : ImageAnswer := s.imageSource.getD Config.imageAnswer

/-- `TRAILING_BYTES_POLICY` (R62): as the platform has set it, by default `fault` (00_scope.md R8, 90_conflicts.md C4).
-/
def trailingBytesPolicy : TrailingPolicy := Config.trailingBytesSetting.getD .fault

/-- `ImageLoad` (R145), in its order of checks, for an answer `r`, a policy and a capacity parameter. -/
def loadImage (policy : TrailingPolicy) (can : Nat → Nat → Bool) (r : ImageAnswer) (s : State) :
    Except Raised State :=
  match r with
  | .failure => .error .ioUnavailable
  | .image bytes =>
    if bytes.length % 4 ≠ 0 ∧ policy = .fault then .error (.malformedImage bytes.length)
    else if 2 ^ 32 - 1 < bytes.length / 4 ∨ can 0 (bytes.length / 4) = false then
      .error (.allocationFailure (bytes.length / 4))
    else do
      let ws ← assembleWords bytes
      .ok { s.setSlot 0 (.mapped (.ofWords ws)) with status := .running }

/-- The transition out of Loading (10_state.md R27): Running, or Faulted with a record that names no instruction. -/
def State.load (s : State) : State :=
  s.settle (loadImage trailingBytesPolicy Config.canAllocate s.imageAnswer s)

end Sys2Proof.Machine
end

