-- ==== Sys2Proof/Machine/Step.lean ====
section
/-! DEFINITION. One step of the block (42_control.md R102; 10_state.md R27). In Loading it is the image load, in Running
one instruction or one poll of a waiting Input; Terminated and Faulted take no step (00_scope.md R14). -/

namespace Sys2Proof.Machine

/-- Stages 4 and 5: the operation, then the termination check. -/
def execute (i : Instr) (s : State) : Host.Outcome State Fault Refusal :=
  match exec i s with
  | .next t => .next t.finish
  | .fault r => .fault r
  | .refused r => .refused r

/-- One instruction (R102). A fetch fault leaves `pc = A`; a DecodeError is raised at dispatch, after the advance (R75,
R129). -/
def runInstruction (s : State) : Host.Outcome State Fault Refusal :=
  match fetch s with
  | .error f => .next (s.fetching.raiseFault f)
  | .ok word =>
    match decode word with
    | .error f => .next ((s.advance word).raiseFault f)
    | .ok i => execute i (s.advance word)

/-- A step of a Running block: an Input that waits goes on in stage 4, with no fetch and no advance, so that `pc` stays
at `A + 1` (10_state.md R21; R113); else the next instruction. -/
def runStep (s : State) : Host.Outcome State Fault Refusal :=
  match s.waiting with
  | some c => execute (.inp c) s
  | none => runInstruction s

/-- One step of the block. -/
def step (s : State) : Host.Outcome State Fault Refusal :=
  match s.status with
  | .loading => .next s.load
  | .running => runStep s
  | .terminated => .fault .runTerminated
  | .faulted => .fault .runFaulted

/-- The state whose very next step fetches and runs the opcode-table word `w` (bit 0 its least significant bit). An
instruction is one 32-bit word, so every bit above `nbits` is 0 already. It stands for the image load, which puts a
program into segment 0 from outside (70_reset_and_hazards.md R145; log 9). -/
def State.withFetchWord (s : State) (_nbits w : Nat) : State := s.placeWord (BitVec.ofNat 32 w)

end Sys2Proof.Machine
end

