-- ==== Sys2Proof/Safety.lean ====
section
/-! DEFINITION. The terms claims are stated in: the invariant every step keeps, what an operation leaves unchanged, what
entering a fault is, which faults and registers belong to which instruction, and what a safe run is. -/

namespace Sys2Proof.Machine

/-! ### The invariant -/

/-- The segment store's invariants (10_state.md R28 to R30) and the model's canonical form of memory (log 11). They
hold during an instruction as well as between steps. -/
structure State.StoreInv (s : State) : Prop where
  /-- slot 0 "is always mapped and always index 0" (R29) -/
  program : ∃ g, s.slots[0]? = some (.mapped g)
  /-- `N <= 2^32` (R28) -/
  bounded : s.slots.length ≤ 2 ^ 32
  /-- an id is in the pool at most once (R30 (d)) -/
  nodup : s.free.Nodup
  /-- "a free id never refers to a currently-mapped segment" (R30 (a), (b)), and is the id of a slot -/
  freeUnmapped : ∀ id ∈ s.free, s.slots[id.toNat]? = some .unmapped
  /-- every Unmapped slot's id is in the pool (R30 (d)) -/
  unmappedFree : ∀ id : Word, s.slots[id.toNat]? = some .unmapped → id ∈ s.free
  /-- every segment is in canonical form -/
  memory : Memory.wf s.slots = true

/-- What holds of every state between steps: the store's invariants, and what ties the run status to the fault record,
the instruction in progress, the wait and the termination check (R21, R27, R32, R102, R104). -/
structure State.Inv (s : State) : Prop where
  store : s.StoreInv
  /-- there is a fault record exactly in status Faulted (R27, R32) -/
  record : s.status = .faulted ↔ s.fault.isSome
  /-- no instruction is in progress between steps (R102), unless an Input waits -/
  idle : s.waiting = none → s.inFlight = none
  /-- an Input waits only in status Running; it is the instruction in progress, and `pc` is at its `A + 1` (R21, R113) -/
  waits : ∀ c, s.waiting = some c → s.status = .running ∧
    ∃ w, s.inFlight = some ⟨s.pc - 1, some w⟩ ∧ memRead s 0 (s.pc - 1) = .ok w ∧ decode w = .ok (.inp c)
  /-- a Terminated block has `pc = len(0)` (R104) -/
  ended : s.status = .terminated → s.pc = s.programLength

/-! ### Frames -/

/-- Every register outside `ds` is unchanged. -/
def SameRegsBut (ds : List (Fin 8)) (s t : State) : Prop := ∀ r, r ∉ ds → t.reg r = s.reg r

/-- The segment store is unchanged: the slot count, the pool, every segment's length, and every word of memory. -/
def SameStore (s t : State) : Prop :=
  t.slotCount = s.slotCount ∧ t.free = s.free ∧
    (∀ id, (t.segment? id).map Segment.len = (s.segment? id).map Segment.len) ∧
    ∀ id o, memRead t id o = memRead s id o

/-- The run status, the fault record and the instruction in progress are unchanged. -/
def SameControl (s t : State) : Prop :=
  t.status = s.status ∧ t.fault = s.fault ∧ t.inFlight = s.inFlight

/-- The host's placed answers, the poll counter and the wait for an answer are unchanged. -/
def SameInputs (s t : State) : Prop :=
  t.imageSource = s.imageSource ∧ t.consoleIn = s.consoleIn ∧ t.consolePolls = s.consolePolls ∧ t.waiting = s.waiting

/-- Nothing but registers `ds` is changed: `pc` stays where the advance put it (10_state.md R22), and so does all else. -/
def OnlyRegs (ds : List (Fin 8)) (s t : State) : Prop :=
  SameRegsBut ds s t ∧ t.pc = s.pc ∧ SameStore s t ∧ SameControl s t ∧ SameInputs s t ∧ t.output = s.output

/-- `t` is `s` after the load of `bytes` (70_reset_and_hazards.md R145): the whole words stand in segment 0 in order, most
significant byte first, the block is Running, and nothing else is changed. -/
def ImageLoaded (bytes : List Byte) (s t : State) : Prop :=
  t.status = .running ∧ t.fault = s.fault ∧ t.inFlight = s.inFlight ∧ t.pc = s.pc ∧ (∀ r, t.reg r = s.reg r) ∧
    t.free = s.free ∧ t.slotCount = s.slotCount ∧ t.output = s.output ∧ SameInputs s t ∧
    (∀ id, id ≠ 0 → t.segment? id = s.segment? id) ∧
    t.programLength = BitVec.ofNat 32 (bytes.length / 4) ∧
    ∀ k < bytes.length / 4, memRead t 0 (BitVec.ofNat 32 k) =
      .ok (bytes.getD (4 * k) 0 ++ bytes.getD (4 * k + 1) 0 ++ bytes.getD (4 * k + 2) 0 ++ bytes.getD (4 * k + 3) 0)

/-- `t` is `s` with fault `f` entered and nothing else changed (60_exceptions.md R128 to R130). -/
def FaultEntered (f : Raised) (s t : State) : Prop :=
  t = { s with
    status := .faulted
    fault := some { raised := f, addr := s.inFlight.map InFlight.addr, word := s.inFlight.bind InFlight.word }
    inFlight := none }

/-! ### Instruction words and instructions -/

/-- `word[31:28]` (30_encoding.md R65, R66). -/
def opField (w : Word) : Nat := (w.extractLsb' 28 4).toNat

/-- `word[8:6]` (R65). -/
def aField (w : Word) : Nat := (w.extractLsb' 6 3).toNat

/-- `word[5:3]` (R65). -/
def bField (w : Word) : Nat := (w.extractLsb' 3 3).toNat

/-- `word[2:0]` (R65). -/
def cField (w : Word) : Nat := (w.extractLsb' 0 3).toNat

/-- `word[27:25]` (R66). -/
def immediateAField (w : Word) : Nat := (w.extractLsb' 25 3).toNat

/-- `word[24:0]` (R66). -/
def literalField (w : Word) : BitVec 25 := w.extractLsb' 0 25

/-- The bits of an instruction word that its opcode reads (R70, R71): the opcode, and the fields the opcode uses. -/
def usedBits : Nat → Word
  | 0 | 1 | 2 | 3 | 4 | 5 | 6 => 0xF00001FF#32
  | 8 | 12 => 0xF000003F#32
  | 9 | 10 | 11 => 0xF0000007#32
  | 13 => 0xFFFFFFFF#32
  | _ => 0xF0000000#32

/-- The number an instruction's word is (R89): 0 in every field and bit the instruction does not use. -/
def wordValue : Instr → Nat
  | .cmov a b c => a * 64 + b * 8 + c
  | .sload a b c => 1 * 2 ^ 28 + a * 64 + b * 8 + c
  | .sstore a b c => 2 * 2 ^ 28 + a * 64 + b * 8 + c
  | .add a b c => 3 * 2 ^ 28 + a * 64 + b * 8 + c
  | .mul a b c => 4 * 2 ^ 28 + a * 64 + b * 8 + c
  | .div a b c => 5 * 2 ^ 28 + a * 64 + b * 8 + c
  | .nand a b c => 6 * 2 ^ 28 + a * 64 + b * 8 + c
  | .halt => 7 * 2 ^ 28
  | .map b c => 8 * 2 ^ 28 + b * 8 + c
  | .unmap c => 9 * 2 ^ 28 + c
  | .out c => 10 * 2 ^ 28 + c
  | .inp c => 11 * 2 ^ 28 + c
  | .loadp b c => 12 * 2 ^ 28 + b * 8 + c
  | .loadi a literal => 13 * 2 ^ 28 + a * 2 ^ 25 + literal.toNat

/-- The registers an instruction may write (10_state.md R18). -/
def mayWrite : Instr → List Nat
  | .cmov a _ _ | .sload a _ _ | .add a _ _ | .mul a _ _ | .div a _ _ | .nand a _ _ | .loadi a _ => [a]
  | .map b _ => [b]
  | .inp c => [c]
  | .sstore _ _ _ | .halt | .unmap _ | .out _ | .loadp _ _ => []

/-- The faults a well-formed instruction can raise once fetched (60_exceptions.md R127). -/
def mayRaise : Instr → Raised → Bool
  | .sload _ _ _, .segmentFault (.unmappedSegment _) => true
  | .sload _ _ _, .segmentFault (.offsetOutOfRange _ _) => true
  | .sstore _ _ _, .segmentFault (.unmappedSegment _) => true
  | .sstore _ _ _, .segmentFault (.offsetOutOfRange _ _) => true
  | .div _ _ _, .divisionByZero => true
  | .map _ _, .allocationFailure _ => true
  | .unmap _, .segmentFault (.unmapSegmentZero _) => true
  | .unmap _, .segmentFault (.doubleUnmap _) => true
  | .out _, .outputRange _ => true
  | .loadp _ _, .segmentFault (.unmappedSegment _) => true
  | .loadp _ _, .allocationFailure _ => true
  | _, _ => false

/-- The instructions that change the segment store (20_memory.md R37). -/
def changesStore : Instr → Bool
  | .sstore _ _ _ | .map _ _ | .unmap _ | .loadp _ _ => true
  | _ => false

/-! ### Runs -/

/-- `t` is reached from `s` by steps of the block. -/
inductive Reaches : State → State → Prop where
  | refl (s : State) : Reaches s s
  | more {s t u : State} : Reaches s t → step t = .next u → Reaches s u

/-- A safe run from `s`: no state it reaches is Faulted (60_exceptions.md R115: every fault is fatal). -/
def SafeRun (s : State) : Prop := ∀ t, Reaches s t → t.status ≠ .faulted

end Sys2Proof.Machine
end

