-- ==== Sys2Proof/Certificates/Slice0/Obligations.lean ====
section
/-! DEFINITION. The statements for the provers, from the numbered rules of spec/. Each docstring names what it
formalises; OBLIGATIONS.json gives the rule or section. "Raised kind", "D<n>" and "log <n>" name the spec's decisions
and this model's log entries. -/

open Sys2Proof Sys2Proof.Machine
open Sys2Proof.Machine.Codec (getU getS setU setS fitsU fitsS)

/-! ### Encoding and decoding -/

/-- The encoder never fails on a well-formed instruction, and decoding its word gives the instruction back, for every
operand value the encoding admits (R89, which the spec marks as derived). -/
def Obligations.DecodeOfEncodeIsIdentity : Prop :=
  ∀ i : Instr, i.wellFormed = true → ∃ w, encode i = .ok w ∧ decode w = .ok i

/-- Field extraction of EVERY word, legal or not: the format is chosen by the opcode alone, the fields stand at the bits
of R65 and R66, and it never faults (R67, R68). -/
def Obligations.EveryWordDecodesToItsFields : Prop :=
  ∀ w : Word, decodeFields w = .ok
    (if opField w = 13 then .formI 13 (immediateAField w) (literalField w)
     else .formS (opField w) (aField w) (bField w) (cField w))

/-- The opcode map is total and unambiguous: opcodes 0 to 13 select a well-formed instruction of that opcode, 14 and 15
are rejected by DecodeError (R73 to R76). -/
def Obligations.OpcodeAloneSelectsTheInstruction : Prop :=
  ∀ w : Word,
    (opField w < 14 → ∃ i, decode w = .ok i ∧ i.opcode = opField w ∧ i.wellFormed = true) ∧
    (14 ≤ opField w → decode w = .error (.decodeError (opField w)))

/-- Bits the opcode does not read have no effect: words that agree on the opcode and the fields it uses decode alike
(R71, the spec's decision D15). -/
def Obligations.UnreadBitsHaveNoEffect : Prop :=
  ∀ w w' : Word, w &&& usedBits (opField w) = w' &&& usedBits (opField w) → decode w = decode w'

/-- The value of an encoded word: opcode and fields at their weights, 0 in every unused bit (R89; the assembler is the
spec's own, D13). -/
def Obligations.EncodedWordHasTheStatedValue : Prop :=
  ∀ i : Instr, i.wellFormed = true → encode i = .ok (BitVec.ofNat 32 (wordValue i)) ∧ wordValue i < 2 ^ 32

/-- An index that does not fit its 3-bit field is refused by OverflowError, not truncated (R85, R121 for an index below
2^64). For an index of 2^64 or more, which is no carrier value, that it is OverflowError too is the model's choice,
log 8. -/
def Obligations.EncoderRefusesWideRegisterIndex : Prop :=
  ∀ i : Instr, i.wellFormed = false →
    ∃ r ∈ i.registers, 7 < r ∧ encode i = .error (.overflow (r : Int) 3)

/-- Words written out from the spec's encodings decode to the instructions they stand for, and the two illegal opcodes
to none: one word for each family. -/
def Obligations.SampleWordsDecode : Prop :=
  decode 0x00000053#32 = .ok (.cmov 1 2 3) ∧ decode 0x3FFFFE0A#32 = .ok (.add 0 1 2) ∧
  decode 0x20000053#32 = .ok (.sstore 1 2 3) ∧ decode 0x8000000D#32 = .ok (.map 1 5) ∧
  decode 0x7ABCDEFF#32 = .ok .halt ∧ decode 0xC00001FF#32 = .ok (.loadp 7 7) ∧
  decode 0xB0000003#32 = .ok (.inp 3) ∧ decode 0xDFFFFFFF#32 = .ok (.loadi 7 0x1FFFFFF#25) ∧
  decode 0xE0000000#32 = .error (.decodeError 14) ∧ decode 0xF1234567#32 = .error (.decodeError 15)

/-! ### The bit-field codec -/

/-- GetU reads the bits `[lsb, lsb+w)` right-justified; width 0 yields 0, width 64 the whole word (R83). -/
def Obligations.GetUReadsTheField : Prop :=
  ∀ (word : Carrier) (w lsb : Nat), w ≤ 64 → lsb + w ≤ 64 →
    ∃ u, getU word w lsb = .ok u ∧ ∀ i, u.getLsbD i = (decide (i < w) && word.getLsbD (lsb + i))

/-- GetS reads the same bits as two's complement: 0 for width 0, else the field with its top bit extended, which is
`u - 2^w` when that bit is set (R84). -/
def Obligations.GetSExtendsTheSign : Prop :=
  ∀ (word : Carrier) (w lsb : Nat), w ≤ 64 → lsb + w ≤ 64 →
    ∃ v, getS word w lsb = .ok v ∧ (w = 0 → v = 0) ∧
      (0 < w → ∀ i < 64, v.getLsbD i = word.getLsbD (lsb + min i (w - 1))) ∧
      (0 < w → ∀ u, getU word w lsb = .ok u →
        v.toInt = if u.getLsbD (w - 1) then (u.toNat : Int) - 2 ^ w else (u.toNat : Int))

/-- SetU replaces exactly the field's bits, and fails with OverflowError when the value does not fit (R85). -/
def Obligations.SetUReplacesOnlyTheField : Prop :=
  ∀ (word : Carrier) (w lsb : Nat) (v : Carrier), w ≤ 64 → lsb + w ≤ 64 →
    (v.toNat < 2 ^ w → ∃ word', setU word w lsb v = .ok word' ∧
      ∀ i < 64, word'.getLsbD i =
        if lsb ≤ i ∧ i < lsb + w then v.getLsbD (i - lsb) else word.getLsbD i) ∧
    (2 ^ w ≤ v.toNat → setU word w lsb v = .error (.overflow (v.toNat : Int) w))

/-- SetS stores the low `w` bits of the value's two's-complement pattern and nothing else, and fails with OverflowError
when the value is outside the signed range of `w` bits (R86; only 0 fits width 0). -/
def Obligations.SetSStoresTwosComplement : Prop :=
  ∀ (word : Carrier) (w lsb : Nat) (v : Carrier), w ≤ 64 → lsb + w ≤ 64 →
    ((w = 0 ∧ v = 0) ∨ (0 < w ∧ -(2 : Int) ^ (w - 1) ≤ v.toInt ∧ v.toInt < (2 : Int) ^ (w - 1)) →
      ∃ word', setS word w lsb v = .ok word' ∧
        ∀ i < 64, word'.getLsbD i =
          if lsb ≤ i ∧ i < lsb + w then v.getLsbD (i - lsb) else word.getLsbD i) ∧
    (¬((w = 0 ∧ v = 0) ∨ (0 < w ∧ -(2 : Int) ^ (w - 1) ≤ v.toInt ∧ v.toInt < (2 : Int) ^ (w - 1))) →
      setS word w lsb v = .error (.overflow v.toInt w))

/-- The codec's round trips, unsigned and signed: a value that was stored is read back; and storing what a field holds
changes nothing (R88, which the spec derives; its first law is the document's §8 property). -/
def Obligations.CodecFieldsRoundTrip : Prop :=
  ∀ (word word' : Carrier) (w lsb : Nat) (v : Carrier), w ≤ 64 → lsb + w ≤ 64 →
    (setU word w lsb v = .ok word' → getU word' w lsb = .ok v) ∧
    (setS word w lsb v = .ok word' → getS word' w lsb = .ok v) ∧
    (getU word w lsb = .ok v → setU word w lsb v = .ok word)

/-- Storing to one field leaves a disjoint field as it was (R88, which the spec derives). -/
def Obligations.DisjointFieldsAreIndependent : Prop :=
  ∀ (word word' : Carrier) (w1 lsb1 w2 lsb2 : Nat) (v : Carrier),
    w1 ≤ 64 → lsb1 + w1 ≤ 64 → w2 ≤ 64 → lsb2 + w2 ≤ 64 → (lsb1 + w1 ≤ lsb2 ∨ lsb2 + w2 ≤ lsb1) →
    setU word w1 lsb1 v = .ok word' → getU word' w2 lsb2 = getU word w2 lsb2

/-- Outside the domain `w <= 64`, `lsb + w <= 64` every codec function raises CodecArgumentError (R80, R126; the spec's
decision D12). For FitsU and FitsS, which take no `lsb`, the recorded `lsb` is the model's choice, log 8. -/
def Obligations.CodecRefusesArgumentsOutsideItsDomain : Prop :=
  ∀ (word v : Carrier) (w lsb : Nat),
    (64 < w ∨ 64 < lsb + w →
      getU word w lsb = .error (.codecArgument w lsb) ∧ getS word w lsb = .error (.codecArgument w lsb) ∧
      setU word w lsb v = .error (.codecArgument w lsb) ∧ setS word w lsb v = .error (.codecArgument w lsb)) ∧
    (64 < w → fitsU v w = .error (.codecArgument w 0) ∧ fitsS v w = .error (.codecArgument w 0))

/-! ### Reset and image load -/

/-- "reset to zero at startup" (R19). -/
def Obligations.ResetClearsEveryRegister : Prop :=
  ∀ r : Fin 8, State.reset.reg r = 0

/-- The rest of the reset table (R35, R143; `pc = 0` is the spec's decision D2, `N = 1` and the empty segment 0 its
derivation): Loading, one slot, segment 0 mapped with no word, an empty pool, no fault record. -/
def Obligations.ResetTableHolds : Prop :=
  State.reset.pc = 0 ∧ State.reset.status = .loading ∧ State.reset.slotCount = 1 ∧ State.reset.free = [] ∧
    State.reset.fault = none ∧ (∃ g, State.reset.segment? 0 = some g ∧ g.len = 0) ∧
    ∀ o, memRead State.reset 0 o = .error (.segmentFault (.offsetOutOfRange 0 o))

/-- The invariant holds at reset. -/
def Obligations.ResetMeetsTheInvariant : Prop := State.reset.Inv

/-- Four image bytes form one word, most significant byte first (R60). -/
def Obligations.AssembledWordIsBigEndian : Prop :=
  ∀ b0 b1 b2 b3 : Byte, assembleWord b0 b1 b2 b3 = .ok (b0 ++ b1 ++ b2 ++ b3)

/-- Image load of an image the host has placed whose length is a multiple of 4 (R61, R63, R145). If the capacity
parameter grants the words, segment 0 holds word `k` of the image at offset `k`, its length is the word count, the block
is Running, and nothing else changes; if not, the load raises AllocationFailure. `CAN_ALLOCATE` is open (D8), so both
cases stand in the conclusion. -/
def Obligations.ImageLoadFillsSegmentZero : Prop :=
  ∀ (s : State) (bytes : List Byte), s.Inv → s.status = .loading → s.imageSource = some (.image bytes) →
    bytes.length % 4 = 0 → bytes.length / 4 < 2 ^ 32 →
    ∃ t, step s = .next t ∧
      (Config.canAllocate 0 (bytes.length / 4) = true → ImageLoaded bytes s t ∧ t.fault = none) ∧
      (Config.canAllocate 0 (bytes.length / 4) = false →
        FaultEntered (.allocationFailure (bytes.length / 4)) s t)

/-- The faults of image load, in their order (R122, R123, R132, R145): no image at all; then a trailing partial group
under the `fault` policy, which holds by default (R8, R62); then more words than segment 0 can hold (R63, D18) or than
the capacity grants. Under the `drop` policy the partial group is discarded (R62) and the whole words are checked and
loaded like any other image's. The policy and the capacity are open (D10, D8), so their cases stand in the conclusion.
The record names no instruction (R32). -/
def Obligations.ImageLoadFaultsInOrder : Prop :=
  (∀ s : State, s.Inv → s.status = .loading → s.imageSource = some .failure →
    ∃ t, step s = .next t ∧ FaultEntered .ioUnavailable s t ∧ t.fault = some ⟨.ioUnavailable, none, none⟩) ∧
  (∀ (s : State) (bytes : List Byte), s.Inv → s.status = .loading → s.imageSource = some (.image bytes) →
    bytes.length % 4 = 0 → 2 ^ 32 ≤ bytes.length / 4 →
    ∃ t, step s = .next t ∧ FaultEntered (.allocationFailure (bytes.length / 4)) s t) ∧
  (∀ (s : State) (bytes : List Byte), s.Inv → s.status = .loading → s.imageSource = some (.image bytes) →
    bytes.length % 4 ≠ 0 →
    ∃ t, step s = .next t ∧
      (Config.trailingBytesSetting = none → FaultEntered (.malformedImage bytes.length) s t) ∧
      (trailingBytesPolicy = .fault → FaultEntered (.malformedImage bytes.length) s t) ∧
      (trailingBytesPolicy = .drop →
        (2 ^ 32 ≤ bytes.length / 4 ∨ Config.canAllocate 0 (bytes.length / 4) = false →
          FaultEntered (.allocationFailure (bytes.length / 4)) s t) ∧
        (bytes.length / 4 < 2 ^ 32 → Config.canAllocate 0 (bytes.length / 4) = true →
          ImageLoaded bytes s t ∧ t.fault = none)))

/-! ### The segment store -/

/-- A read after a write gives the written word at its address and the old word (or the old fault) everywhere else
(R44, R45, R54). -/
def Obligations.MemoryReadAfterWrite : Prop :=
  ∀ (s t : State) (id o v : Word), s.StoreInv → memWrite s id o v = .ok t →
    ∀ id' o', memRead t id' o' = if id' = id ∧ o' = o then .ok v else memRead s id' o'

/-- Allocation that the store can supply: the id is the most recently released one, else `N`; it named no segment and is
not 0; every word of the new segment reads 0 and its length is `n`; every other segment is untouched (R47, R48; LIFO is
the spec's choice, C5). For every capacity parameter. -/
def Obligations.AllocateGivesAFreshZeroSegment : Prop :=
  ∀ (can : Nat → Nat → Bool) (n : Word) (s : State), s.StoreInv → can s.liveWords n.toNat = true →
    (s.free = [] → s.slotCount < 2 ^ 32) →
    ∃ id t, allocate can n s = .ok (id, t) ∧
      id = s.free.headD (BitVec.ofNat 32 s.slotCount) ∧ id ≠ 0 ∧ s.segment? id = none ∧
      (t.segment? id).map Segment.len = some n ∧ (∀ o, o < n → memRead t id o = .ok 0) ∧
      (∀ id', id' ≠ id → t.segment? id' = s.segment? id') ∧ t.free = s.free.tail ∧
      t.slotCount = (if s.free = [] then s.slotCount + 1 else s.slotCount) ∧ (∀ r, t.reg r = s.reg r)

/-- Allocation the store cannot supply raises AllocationFailure: no capacity, or no 32-bit id left (R47; the spec's
decisions D8, D9). -/
def Obligations.AllocateFailsWithoutStorageOrIds : Prop :=
  ∀ (can : Nat → Nat → Bool) (n : Word) (s : State),
    can s.liveWords n.toNat = false ∨ (s.free = [] ∧ s.slotCount = 2 ^ 32) →
    allocate can n s = .error (.allocationFailure n.toNat)

/-- Release (R49) and what follows it (R50): id 0 and an id that is not mapped fault; a mapped id goes on top of the
pool, its slot is unmapped and nothing else changes; then every access to it and a second release fault. -/
def Obligations.ReleaseUnmapsAndPoolsTheId : Prop :=
  ∀ (s : State) (id : Word),
    (id = 0 → release id s = .error (.segmentFault (.unmapSegmentZero id))) ∧
    (id ≠ 0 → s.segment? id = none → release id s = .error (.segmentFault (.doubleUnmap id))) ∧
    (id ≠ 0 → s.segment? id ≠ none → ∃ t, release id s = .ok t ∧
      t.free = id :: s.free ∧ t.slotCount = s.slotCount ∧ (∀ r, t.reg r = s.reg r) ∧
      (∀ id', id' ≠ id → t.segment? id' = s.segment? id') ∧
      (∀ o, memRead t id o = .error (.segmentFault (.unmappedSegment id))) ∧
      release id t = .error (.segmentFault (.doubleUnmap id)))

/-- ReplaceProgram makes segment 0 a copy of segment `id` (R51), and the copy is deep: a later write to either leaves the
other alone (R52). For every capacity parameter. -/
def Obligations.ProgramReplacementIsADeepCopy : Prop :=
  ∀ (can : Nat → Nat → Bool) (s : State) (id : Word) (g : Segment), s.StoreInv → id ≠ 0 →
    s.segment? id = some g → can (s.liveWords - s.programLength.toNat) g.len.toNat = true →
    ∃ t, replaceProgram can id s = .ok t ∧ t.segment? 0 = some g ∧ t.programLength = g.len ∧
      (∀ id', id' ≠ 0 → t.segment? id' = s.segment? id') ∧ t.free = s.free ∧ t.slotCount = s.slotCount ∧
      (∀ u o v, memWrite t id o v = .ok u → ∀ o', memRead u 0 o' = memRead t 0 o') ∧
      (∀ u o v, memWrite t 0 o v = .ok u → ∀ o', memRead u id o' = memRead t id o')

/-- Two segments in canonical form that have the same length and read alike are the same segment: equal memories are
equal data (the model's representation, log 11). -/
def Obligations.SegmentsThatReadAlikeAreEqual : Prop :=
  ∀ g h : Segment, g.wf = true → h.wf = true → g.len = h.len → (∀ o, o < g.len → g.get o = h.get o) → g = h

/-! ### The instructions: encoding, result, completion and frame -/

/-- Conditional Move (R90): opcode 0; `x[a]` gets `x[b]` exactly when `x[c]` is not 0, and nothing else changes. -/
def Obligations.ConditionalMoveResult : Prop :=
  (∀ w : Word, opField w = 0 → decode w = .ok (.cmov (aField w) (bField w) (cField w))) ∧
  ∀ (a b c : Fin 8) (s : State), ∃ t, exec (.cmov a b c) s = .next t ∧
    t.reg a = (if s.reg c ≠ 0 then s.reg b else s.reg a) ∧ OnlyRegs [a] s t

/-- Add (R91): opcode 3; the sum modulo 2^32. -/
def Obligations.AddResult : Prop :=
  (∀ w : Word, opField w = 3 → decode w = .ok (.add (aField w) (bField w) (cField w))) ∧
  ∀ (a b c : Fin 8) (s : State), ∃ t, exec (.add a b c) s = .next t ∧
    (t.reg a).toNat = ((s.reg b).toNat + (s.reg c).toNat) % 2 ^ 32 ∧ OnlyRegs [a] s t

/-- Multiply (R92): opcode 4; the low 32 bits of the unsigned product. -/
def Obligations.MultiplyResult : Prop :=
  (∀ w : Word, opField w = 4 → decode w = .ok (.mul (aField w) (bField w) (cField w))) ∧
  ∀ (a b c : Fin 8) (s : State), ∃ t, exec (.mul a b c) s = .next t ∧
    (t.reg a).toNat = ((s.reg b).toNat * (s.reg c).toNat) % 2 ^ 32 ∧ OnlyRegs [a] s t

/-- Divide (R93): opcode 5; the quotient of the operands as natural numbers, rounded down (that the division is unsigned
is the spec's derivation); a zero divisor raises DivisionByZeroError and writes nothing (R120). -/
def Obligations.DivideResult : Prop :=
  (∀ w : Word, opField w = 5 → decode w = .ok (.div (aField w) (bField w) (cField w))) ∧
  ∀ (a b c : Fin 8) (s : State),
    (s.reg c ≠ 0 → ∃ t, exec (.div a b c) s = .next t ∧
      (t.reg a).toNat = (s.reg b).toNat / (s.reg c).toNat ∧ OnlyRegs [a] s t) ∧
    (s.reg c = 0 → ∃ t, exec (.div a b c) s = .next t ∧ FaultEntered .divisionByZero s t)

/-- NAND (R94): opcode 6; bit by bit, the complement of the conjunction. -/
def Obligations.NandResult : Prop :=
  (∀ w : Word, opField w = 6 → decode w = .ok (.nand (aField w) (bField w) (cField w))) ∧
  ∀ (a b c : Fin 8) (s : State), ∃ t, exec (.nand a b c) s = .next t ∧
    (∀ k < 32, (t.reg a).getLsbD k = !((s.reg b).getLsbD k && (s.reg c).getLsbD k)) ∧ OnlyRegs [a] s t

/-- Load Immediate (R95): opcode 13, Format I; the 25-bit literal, zero-extended. -/
def Obligations.LoadImmediateResult : Prop :=
  (∀ w : Word, opField w = 13 → decode w = .ok (.loadi (immediateAField w) (literalField w))) ∧
  ∀ (a : Fin 8) (literal : BitVec 25) (s : State), ∃ t, exec (.loadi a literal) s = .next t ∧
    (t.reg a).toNat = literal.toNat ∧ OnlyRegs [a] s t

/-- Segment Load (R97): opcode 1; the word at offset `x[c]` of segment `x[b]`; an unmapped or nonexistent id, and an
offset at or beyond the length, fault and write nothing. -/
def Obligations.SegmentLoadResult : Prop :=
  (∀ w : Word, opField w = 1 → decode w = .ok (.sload (aField w) (bField w) (cField w))) ∧
  ∀ (a b c : Fin 8) (s : State),
    (∀ g, s.segment? (s.reg b) = some g → s.reg c < g.len →
      ∃ t, exec (.sload a b c) s = .next t ∧ t.reg a = g.get (s.reg c) ∧ OnlyRegs [a] s t) ∧
    (s.segment? (s.reg b) = none →
      ∃ t, exec (.sload a b c) s = .next t ∧ FaultEntered (.segmentFault (.unmappedSegment (s.reg b))) s t) ∧
    (∀ g, s.segment? (s.reg b) = some g → g.len ≤ s.reg c →
      ∃ t, exec (.sload a b c) s = .next t ∧
        FaultEntered (.segmentFault (.offsetOutOfRange (s.reg b) (s.reg c))) s t)

/-- Segment Store (R98): opcode 2; here `a` names the segment id, `b` the offset, `c` the value. The word at
`(x[a], x[b])` reads as `x[c]` afterwards, every other word of memory and every length is unchanged, and no register is
written; the two faults write nothing. -/
def Obligations.SegmentStoreResult : Prop :=
  (∀ w : Word, opField w = 2 → decode w = .ok (.sstore (aField w) (bField w) (cField w))) ∧
  ∀ (a b c : Fin 8) (s : State), s.StoreInv →
    (∀ g, s.segment? (s.reg a) = some g → s.reg b < g.len →
      ∃ t, exec (.sstore a b c) s = .next t ∧ memRead t (s.reg a) (s.reg b) = .ok (s.reg c) ∧
        (∀ id o, ¬(id = s.reg a ∧ o = s.reg b) → memRead t id o = memRead s id o) ∧
        (∀ id, (t.segment? id).map Segment.len = (s.segment? id).map Segment.len) ∧
        t.slotCount = s.slotCount ∧ t.free = s.free ∧ SameRegsBut [] s t ∧ t.pc = s.pc ∧ SameControl s t ∧
        SameInputs s t ∧ t.output = s.output) ∧
    (s.segment? (s.reg a) = none →
      ∃ t, exec (.sstore a b c) s = .next t ∧ FaultEntered (.segmentFault (.unmappedSegment (s.reg a))) s t) ∧
    (∀ g, s.segment? (s.reg a) = some g → g.len ≤ s.reg b →
      ∃ t, exec (.sstore a b c) s = .next t ∧
        FaultEntered (.segmentFault (.offsetOutOfRange (s.reg a) (s.reg b))) s t)

/-- Map Segment (R99): opcode 8. Where the capacity parameter (open, D8) grants the words and an id is left, `x[b]` gets
the most recently released id, else `N`; the id is not 0 and named no segment; its segment has `x[c]` words, read before
the id is written, each 0; every other segment and register is unchanged. Otherwise AllocationFailure is raised and
nothing changes. -/
def Obligations.MapSegmentResult : Prop :=
  (∀ w : Word, opField w = 8 → decode w = .ok (.map (bField w) (cField w))) ∧
  ∀ (b c : Fin 8) (s : State), s.StoreInv →
    ∃ t, exec (.map b c) s = .next t ∧
      (Config.canAllocate s.liveWords (s.reg c).toNat = true → (s.free = [] → s.slotCount < 2 ^ 32) →
        t.reg b = s.free.headD (BitVec.ofNat 32 s.slotCount) ∧ t.reg b ≠ 0 ∧ s.segment? (t.reg b) = none ∧
        (t.segment? (t.reg b)).map Segment.len = some (s.reg c) ∧
        (∀ o, o < s.reg c → memRead t (t.reg b) o = .ok 0) ∧
        (∀ id, id ≠ t.reg b → t.segment? id = s.segment? id ∧ ∀ o, memRead t id o = memRead s id o) ∧
        t.free = s.free.tail ∧ t.slotCount = (if s.free = [] then s.slotCount + 1 else s.slotCount) ∧
        SameRegsBut [b] s t ∧ t.pc = s.pc ∧ SameControl s t ∧ SameInputs s t ∧ t.output = s.output) ∧
      (Config.canAllocate s.liveWords (s.reg c).toNat = false ∨ (s.free = [] ∧ s.slotCount = 2 ^ 32) →
        FaultEntered (.allocationFailure (s.reg c).toNat) s t)

/-- Unmap Segment (R100): opcode 9. A mapped id other than 0 is unmapped and goes on top of the pool; every other segment
and every register is unchanged. Id 0, and an id that is not mapped, fault and change nothing. -/
def Obligations.UnmapSegmentResult : Prop :=
  (∀ w : Word, opField w = 9 → decode w = .ok (.unmap (cField w))) ∧
  ∀ (c : Fin 8) (s : State),
    (s.reg c ≠ 0 → s.segment? (s.reg c) ≠ none → ∃ t, exec (.unmap c) s = .next t ∧
      t.segment? (s.reg c) = none ∧ t.free = s.reg c :: s.free ∧ t.slotCount = s.slotCount ∧
      (∀ id, id ≠ s.reg c → t.segment? id = s.segment? id ∧ ∀ o, memRead t id o = memRead s id o) ∧
      SameRegsBut [] s t ∧ t.pc = s.pc ∧ SameControl s t ∧ SameInputs s t ∧ t.output = s.output) ∧
    (s.reg c = 0 → ∃ t, exec (.unmap c) s = .next t ∧
      FaultEntered (.segmentFault (.unmapSegmentZero 0)) s t) ∧
    (s.reg c ≠ 0 → s.segment? (s.reg c) = none → ∃ t, exec (.unmap c) s = .next t ∧
      FaultEntered (.segmentFault (.doubleUnmap (s.reg c))) s t)

/-- Halt (R105): opcode 7. `pc` becomes the current length of segment 0, nothing else changes, and the termination check
then ends the run with success: a Running block whose fetched word is a Halt steps to Terminated. -/
def Obligations.HaltResult : Prop :=
  (∀ w : Word, opField w = 7 → decode w = .ok .halt) ∧
  (∀ s : State, ∃ t, exec .halt s = .next t ∧ t.pc = s.programLength ∧ SameRegsBut [] s t ∧ SameStore s t ∧
    SameControl s t ∧ SameInputs s t ∧ t.output = s.output) ∧
  ∀ (s : State) (w : Word), s.status = .running → memRead s 0 s.pc = .ok w → opField w = 7 →
    s.waiting = none →
    ∃ t, step s = .next t ∧ t.status = .terminated ∧ t.pc = s.programLength ∧ t.exitStatus = some 0

/-- Load Program (R106): opcode 12. With `x[b] = 0` it is a jump to `x[c]` and no word changes. With a mapped `x[b]`,
where the capacity parameter (open, D8) grants the copy, segment 0 becomes that segment, which stays mapped, and `pc` is
`x[c]`; else AllocationFailure. An unmapped `x[b]` faults. No register is written. -/
def Obligations.LoadProgramResult : Prop :=
  (∀ w : Word, opField w = 12 → decode w = .ok (.loadp (bField w) (cField w))) ∧
  ∀ (b c : Fin 8) (s : State), s.StoreInv →
    (s.reg b = 0 → ∃ t, exec (.loadp b c) s = .next t ∧ t.pc = s.reg c ∧ SameRegsBut [] s t ∧ SameStore s t ∧
      SameControl s t ∧ SameInputs s t ∧ t.output = s.output) ∧
    (∀ g, s.reg b ≠ 0 → s.segment? (s.reg b) = some g → ∃ t, exec (.loadp b c) s = .next t ∧
      (Config.canAllocate (s.liveWords - s.programLength.toNat) g.len.toNat = true →
        t.pc = s.reg c ∧ t.segment? 0 = some g ∧ t.programLength = g.len ∧
        (∀ id, id ≠ 0 → t.segment? id = s.segment? id ∧ ∀ o, memRead t id o = memRead s id o) ∧
        t.free = s.free ∧ t.slotCount = s.slotCount ∧ SameRegsBut [] s t ∧ SameControl s t ∧ SameInputs s t ∧
        t.output = s.output) ∧
      (Config.canAllocate (s.liveWords - s.programLength.toNat) g.len.toNat = false →
        FaultEntered (.allocationFailure g.len.toNat) s t)) ∧
    (s.reg b ≠ 0 → s.segment? (s.reg b) = none → ∃ t, exec (.loadp b c) s = .next t ∧
      FaultEntered (.segmentFault (.unmappedSegment (s.reg b))) s t)

/-- Output (R112; the kind's name is the spec's decision D7): opcode 10. A value of 0 to 255 joins the end of the output
log as one byte; a larger one raises OutputRangeError and writes nothing. No register or word changes. -/
def Obligations.OutputResult : Prop :=
  (∀ w : Word, opField w = 10 → decode w = .ok (.out (cField w))) ∧
  ∀ (c : Fin 8) (s : State),
    ((s.reg c).toNat ≤ 255 → ∃ t b, exec (.out c) s = .next t ∧ b.toNat = (s.reg c).toNat ∧
      t.output = s.output ++ [b] ∧ SameRegsBut [] s t ∧ t.pc = s.pc ∧ SameStore s t ∧ SameControl s t ∧
      SameInputs s t) ∧
    (255 < (s.reg c).toNat → ∃ t, exec (.out c) s = .next t ∧ FaultEntered (.outputRange (s.reg c)) s t)

/-- Input (R113): opcode 11. A byte is zero-extended into `x[c]`, end-of-stream writes all ones. The answer is the first
the host has placed, else a draw `Config.consoleReply` at the poll counter, which every poll advances (log 2). While the
host has not answered, the instruction has not completed: it waits (R14 (d)) and nothing else changes. `pc` is never
written (R21). -/
def Obligations.InputResult : Prop :=
  (∀ w : Word, opField w = 11 → decode w = .ok (.inp (cField w))) ∧
  ∀ (c : Fin 8) (s : State) (reply : ConsoleReply),
    s.consoleIn.headD (Config.consoleReply s.consolePolls) = reply →
    ∃ t, exec (.inp c) s = .next t ∧ t.consoleIn = s.consoleIn.tail ∧ t.consolePolls = s.consolePolls + 1 ∧
      t.imageSource = s.imageSource ∧ SameStore s t ∧ SameControl s t ∧ t.output = s.output ∧
      SameRegsBut [c] s t ∧ t.pc = s.pc ∧
      (∀ v, reply = .byte v → (t.reg c).toNat = v.toNat ∧ t.waiting = none) ∧
      (reply = .endOfStream → t.reg c = 0xFFFFFFFF#32 ∧ t.waiting = none) ∧
      (reply = .noAnswer → t.reg c = s.reg c ∧ t.waiting = some c)

/-- A register index above 7 raises InvalidRegisterError before any other effect of the instruction (R17, R118; keeping
the check is the choice D23 leaves, log 7). No word decodes to such an instruction (OpcodeAloneSelectsTheInstruction). -/
def Obligations.BadRegisterIndexFaultsFirst : Prop :=
  ∀ (i : Instr) (s : State), i.wellFormed = false →
    ∃ k ∈ i.registers, 7 < k ∧ ∃ t, exec i s = .next t ∧ FaultEntered (.invalidRegister k) s t

/-! ### The pc controller -/

/-- A step runs the decoded instruction: when no Input waits and the word at `pc` of segment 0 decodes to `i`, the step is
`exec i` at the state with `pc` advanced (and the instruction in progress noted for a fault record, log 5), then the
termination check unless the instruction entered Faulted or waits (R102, R104, R113). -/
def Obligations.StepRunsTheDecodedInstruction : Prop :=
  ∀ (s : State) (w : Word) (i : Instr), s.status = .running → s.waiting = none → memRead s 0 s.pc = .ok w →
    decode w = .ok i →
    step s =
      match exec i { s with pc := s.pc + 1, inFlight := some { addr := s.pc, word := some w } } with
      | .next t => .next
          (if t.status = .running ∧ t.waiting = none then
            { t with inFlight := none, status := if t.pc = t.programLength then .terminated else .running }
          else t)
      | .fault r => .fault r
      | .refused r => .refused r

/-- A fetch at or beyond the length of segment 0 raises SegmentFault(OffsetOutOfRange, 0, pc) (R103; filed under this
kind by the spec's decision D4); `pc` stays at `A` and the record has no word (R129, R32, decision D6). -/
def Obligations.FetchBeyondTheProgramFaults : Prop :=
  ∀ s : State, s.Inv → s.status = .running → s.waiting = none → s.programLength ≤ s.pc →
    ∃ t, step s = .next t ∧ t.status = .faulted ∧ t.pc = s.pc ∧
      t.fault = some ⟨.segmentFault (.offsetOutOfRange 0 s.pc), some s.pc, none⟩ ∧
      SameRegsBut [] s t ∧ SameStore s t ∧ SameInputs s t ∧ t.output = s.output

/-- A word with opcode 14 or 15 raises DecodeError at dispatch, after the advance; the record holds the opcode, the
address and the word (R75, R117). -/
def Obligations.IllegalOpcodeRaisesDecodeError : Prop :=
  ∀ (s : State) (w : Word), s.status = .running → s.waiting = none → memRead s 0 s.pc = .ok w → 14 ≤ opField w →
    ∃ t, step s = .next t ∧ t.status = .faulted ∧ t.pc = s.pc + 1 ∧
      t.fault = some ⟨.decodeError (opField w), some s.pc, some w⟩ ∧
      SameRegsBut [] s t ∧ SameStore s t ∧ SameInputs s t ∧ t.output = s.output

/-- The termination check (R104): after a step of a Running block that raised no fault and in which the instruction
completed, the block is Terminated exactly when `pc` equals the length of segment 0 as it is then, and Running
otherwise. The comparison is equality (D22). While an Input waits, the instruction has not completed and the block is
Running (R14 (d)). -/
def Obligations.TerminationCheckIsEquality : Prop :=
  ∀ s t : State, s.status = .running → step s = .next t → t.status ≠ .faulted →
    (t.waiting = none →
      (t.status = .terminated ↔ t.pc = t.programLength) ∧ (t.status = .running ↔ t.pc ≠ t.programLength)) ∧
    (t.waiting ≠ none → t.status = .running)

/-- How each instruction leaves `pc` (R22): Halt at the length of segment 0, Load Program at `x[c]` as read, every other
instruction, one that faults after its fetch and an Input that waits (R21), at `A + 1`. -/
def Obligations.ProgramCounterAfterEachInstruction : Prop :=
  ∀ (s t : State) (w : Word) (i : Instr), s.status = .running → s.waiting = none → memRead s 0 s.pc = .ok w →
    decode w = .ok i → step s = .next t →
    (t.status = .faulted → t.pc = s.pc + 1) ∧
    (t.status ≠ .faulted →
      (i = .halt → t.pc = t.programLength) ∧
      (∀ (b : Nat) (c : Fin 8), i = .loadp b c → t.pc = s.reg c) ∧
      (i ≠ .halt → (∀ b c, i ≠ .loadp b c) → t.pc = s.pc + 1))

/-- A store to the word after the storing instruction is what the next fetch reads (R57, R150). -/
def Obligations.StoreToProgramIsFetchedNext : Prop :=
  ∀ (s : State) (w : Word) (a b c : Fin 8), s.Inv → s.status = .running → s.waiting = none →
    memRead s 0 s.pc = .ok w → decode w = .ok (.sstore a b c) → s.reg a = 0 → s.reg b = s.pc + 1 → s.pc + 1 < s.programLength →
    ∃ t, step s = .next t ∧ t.status = .running ∧ t.pc = s.pc + 1 ∧ memRead t 0 t.pc = .ok (s.reg c)

/-- A Loading or Running block always takes a step; a Terminated or Faulted one takes none (R14, R27, R131). -/
def Obligations.OnlyEndedRunsTakeNoStep : Prop :=
  ∀ s : State,
    (s.status = .loading ∨ s.status = .running → ∃ t, step s = .next t) ∧
    (s.status = .terminated → step s = .fault .runTerminated) ∧
    (s.status = .faulted → step s = .fault .runFaulted)

/-! ### Whole-machine rules -/

/-- The invariant is kept by every step, from every state that meets it. -/
def Obligations.EveryStepKeepsTheInvariant : Prop :=
  ∀ s t : State, s.Inv → step s = .next t → t.Inv

/-- Faults are precise (R128 to R130): an instruction that enters Faulted has changed nothing but the run status and the
fault record, which names the address and word of the instruction in progress. -/
def Obligations.FaultsArePrecise : Prop :=
  ∀ (i : Instr) (s t : State), s.status ≠ .faulted → exec i s = .next t → t.status = .faulted →
    ∃ f, FaultEntered f s t

/-- Which instruction raises which fault (R127): no well-formed instruction raises another. -/
def Obligations.EachInstructionRaisesOnlyItsFaults : Prop :=
  ∀ (i : Instr) (s t : State), i.wellFormed = true → s.status ≠ .faulted → exec i s = .next t →
    t.status = .faulted → ∃ r, t.fault = some r ∧ mayRaise i r.raised = true

/-- Which instruction writes which register (R18): every other register is unchanged, whatever the instruction does. -/
def Obligations.OnlyTheDestinationRegisterChanges : Prop :=
  ∀ (i : Instr) (s t : State), exec i s = .next t → ∀ r : Fin 8, (r : Nat) ∉ mayWrite i → t.reg r = s.reg r

/-- Only Segment Store, Map, Unmap and Load Program change the segment store (R37). -/
def Obligations.OnlyFourInstructionsChangeTheStore : Prop :=
  ∀ (i : Instr) (s t : State), changesStore i = false → exec i s = .next t →
    SameStore s t ∧ t.slots = s.slots

/-- "`N` only grows" (R28), and by at most one slot a step. -/
def Obligations.SlotCountOnlyGrows : Prop :=
  ∀ s t : State, step s = .next t → s.slotCount ≤ t.slotCount ∧ t.slotCount ≤ s.slotCount + 1

/-- A byte handed to the console is never retracted (R111, D24): a step leaves the output log as it is or adds one byte
at its end, and it adds one only where it runs an Output instruction. -/
def Obligations.OutputLogOnlyGrows : Prop :=
  (∀ s t : State, step s = .next t →
    t.output = s.output ∨
      (∃ b, t.output = s.output ++ [b]) ∧ s.status = .running ∧ s.waiting = none ∧
        ∃ w c, memRead s 0 s.pc = .ok w ∧ decode w = .ok (.out c)) ∧
  ∀ (i : Instr) (s t : State), exec i s = .next t → t.output ≠ s.output → ∃ c, i = .out c

/-- The exit status the host sees (R142): 0 for Terminated, a non-zero value for Faulted, none before the run has ended.
The non-zero value is open (D14). -/
def Obligations.ExitStatusTellsSuccessFromFailure : Prop :=
  ∀ s : State, s.Inv →
    (s.exitStatus = some 0 ↔ s.status = .terminated) ∧
    (s.status = .faulted ↔ ∃ code, s.exitStatus = some code ∧ code ≠ 0) ∧
    (s.exitStatus = none ↔ s.status = .loading ∨ s.status = .running)

/-! ### The codec's range tests, the wait of an Input, and `pc` as an operand -/

/-- Inside the domain FitsU and FitsS say whether the value is in the range of `w` bits, unsigned (R81) and signed (R82);
that only 0 fits width 0 is the spec's decision D11. -/
def Obligations.FitsDecidesTheRange : Prop :=
  ∀ (v : Carrier) (w : Nat), w ≤ 64 →
    fitsU v w = .ok (decide (v.toNat < 2 ^ w)) ∧
    fitsS v w = .ok (decide ((w = 0 ∧ v = 0) ∨
      (0 < w ∧ -(2 : Int) ^ (w - 1) ≤ v.toInt ∧ v.toInt < (2 : Int) ^ (w - 1))))

/-- While the host has not answered, an Input holds the block (R14 (d), R113, R152): the step that starts it, and every
further poll, leaves the block Running with the Input waiting, `pc` at its `A + 1` (R21), and registers, memory, pool
and output as they were. That each poll is a step, and uses one reply up, is the model's choice, log 2. -/
def Obligations.UnansweredInputHoldsTheBlock : Prop :=
  (∀ (s : State) (w : Word) (c : Fin 8), s.status = .running → s.waiting = none → memRead s 0 s.pc = .ok w →
    decode w = .ok (.inp c) → s.consoleReply = .noAnswer →
    ∃ t, step s = .next t ∧ t.status = .running ∧ t.waiting = some c ∧ t.pc = s.pc + 1 ∧
      t.inFlight = some ⟨s.pc, some w⟩ ∧ t.fault = s.fault ∧ SameRegsBut [] s t ∧ SameStore s t ∧
      t.output = s.output ∧ t.consoleIn = s.consoleIn.tail ∧ t.consolePolls = s.consolePolls + 1) ∧
  ∀ (s : State) (c : Fin 8), s.status = .running → s.waiting = some c → s.consoleReply = .noAnswer →
    ∃ t, step s = .next t ∧ t.status = .running ∧ t.waiting = some c ∧ t.pc = s.pc ∧ t.inFlight = s.inFlight ∧
      t.fault = s.fault ∧ SameRegsBut [] s t ∧ SameStore s t ∧ t.output = s.output ∧
      t.consoleIn = s.consoleIn.tail ∧ t.consolePolls = s.consolePolls + 1

/-- The host's answer ends the wait (R113, R141): the Input completes with its result, with no second fetch or advance,
and the termination check follows. -/
def Obligations.AnswerEndsTheWait : Prop :=
  ∀ (s : State) (c : Fin 8), s.status = .running → s.waiting = some c → s.consoleReply ≠ .noAnswer →
    ∃ t, step s = .next t ∧ t.waiting = none ∧ t.inFlight = none ∧ t.pc = s.pc ∧ t.fault = s.fault ∧
      (∀ v, s.consoleReply = .byte v → (t.reg c).toNat = v.toNat) ∧
      (s.consoleReply = .endOfStream → t.reg c = 0xFFFFFFFF#32) ∧
      SameRegsBut [c] s t ∧ SameStore s t ∧ t.output = s.output ∧
      t.consoleIn = s.consoleIn.tail ∧ t.consolePolls = s.consolePolls + 1 ∧
      t.status = (if s.pc = s.programLength then .terminated else .running)

/-- `pc` during an operation (R21): only Halt and Load Program write it, and no instruction reads it as an operand: from
states that differ in `pc` alone, `exec` leaves states that differ in `pc` alone. -/
def Obligations.ProgramCounterIsNoOperand : Prop :=
  ∀ (i : Instr) (s t : State) (v : Word), exec i s = .next t →
    (i ≠ .halt → (∀ b c, i ≠ .loadp b c) → t.pc = s.pc) ∧
    ∃ u, exec i (s.setPc v) = .next u ∧ u.setPc 0 = t.setPc 0
end

