-- ==== Sys2Proof/Laws/State.lean ====
section
/-! SUPPORT. The small lemmas of State: for each named update, one lemma per field, and what each update leaves of the
derived readings (registers, segments, memory words). Later proofs cite these and unfold no record update. -/

namespace Sys2Proof.Machine

variable (s : State)

/-! ### setReg -/

@[simp] theorem State.setReg_regs (r : Fin 8) (v : Word) : (s.setReg r v).regs = s.regs.set r v := rfl
@[simp] theorem State.setReg_pc (r : Fin 8) (v : Word) : (s.setReg r v).pc = s.pc := rfl
@[simp] theorem State.setReg_status (r : Fin 8) (v : Word) : (s.setReg r v).status = s.status := rfl
@[simp] theorem State.setReg_slots (r : Fin 8) (v : Word) : (s.setReg r v).slots = s.slots := rfl
@[simp] theorem State.setReg_free (r : Fin 8) (v : Word) : (s.setReg r v).free = s.free := rfl
@[simp] theorem State.setReg_fault (r : Fin 8) (v : Word) : (s.setReg r v).fault = s.fault := rfl
@[simp] theorem State.setReg_inFlight (r : Fin 8) (v : Word) : (s.setReg r v).inFlight = s.inFlight := rfl
@[simp] theorem State.setReg_imageSource (r : Fin 8) (v : Word) : (s.setReg r v).imageSource = s.imageSource := rfl
@[simp] theorem State.setReg_consoleIn (r : Fin 8) (v : Word) : (s.setReg r v).consoleIn = s.consoleIn := rfl
@[simp] theorem State.setReg_consolePolls (r : Fin 8) (v : Word) : (s.setReg r v).consolePolls = s.consolePolls := rfl
@[simp] theorem State.setReg_waiting (r : Fin 8) (v : Word) : (s.setReg r v).waiting = s.waiting := rfl
@[simp] theorem State.setReg_output (r : Fin 8) (v : Word) : (s.setReg r v).output = s.output := rfl

/-! ### setPc -/

@[simp] theorem State.setPc_regs (v : Word) : (s.setPc v).regs = s.regs := rfl
@[simp] theorem State.setPc_pc (v : Word) : (s.setPc v).pc = v := rfl
@[simp] theorem State.setPc_status (v : Word) : (s.setPc v).status = s.status := rfl
@[simp] theorem State.setPc_slots (v : Word) : (s.setPc v).slots = s.slots := rfl
@[simp] theorem State.setPc_free (v : Word) : (s.setPc v).free = s.free := rfl
@[simp] theorem State.setPc_fault (v : Word) : (s.setPc v).fault = s.fault := rfl
@[simp] theorem State.setPc_inFlight (v : Word) : (s.setPc v).inFlight = s.inFlight := rfl
@[simp] theorem State.setPc_imageSource (v : Word) : (s.setPc v).imageSource = s.imageSource := rfl
@[simp] theorem State.setPc_consoleIn (v : Word) : (s.setPc v).consoleIn = s.consoleIn := rfl
@[simp] theorem State.setPc_consolePolls (v : Word) : (s.setPc v).consolePolls = s.consolePolls := rfl
@[simp] theorem State.setPc_waiting (v : Word) : (s.setPc v).waiting = s.waiting := rfl
@[simp] theorem State.setPc_output (v : Word) : (s.setPc v).output = s.output := rfl

/-! ### setSlot -/

@[simp] theorem State.setSlot_regs (id : Word) (sl : Slot) : (s.setSlot id sl).regs = s.regs := rfl
@[simp] theorem State.setSlot_pc (id : Word) (sl : Slot) : (s.setSlot id sl).pc = s.pc := rfl
@[simp] theorem State.setSlot_status (id : Word) (sl : Slot) : (s.setSlot id sl).status = s.status := rfl
@[simp] theorem State.setSlot_slots (id : Word) (sl : Slot) : (s.setSlot id sl).slots = s.slots.set id.toNat sl := rfl
@[simp] theorem State.setSlot_free (id : Word) (sl : Slot) : (s.setSlot id sl).free = s.free := rfl
@[simp] theorem State.setSlot_fault (id : Word) (sl : Slot) : (s.setSlot id sl).fault = s.fault := rfl
@[simp] theorem State.setSlot_inFlight (id : Word) (sl : Slot) : (s.setSlot id sl).inFlight = s.inFlight := rfl
@[simp] theorem State.setSlot_imageSource (id : Word) (sl : Slot) : (s.setSlot id sl).imageSource = s.imageSource := rfl
@[simp] theorem State.setSlot_consoleIn (id : Word) (sl : Slot) : (s.setSlot id sl).consoleIn = s.consoleIn := rfl
@[simp] theorem State.setSlot_consolePolls (id : Word) (sl : Slot) : (s.setSlot id sl).consolePolls = s.consolePolls := rfl
@[simp] theorem State.setSlot_waiting (id : Word) (sl : Slot) : (s.setSlot id sl).waiting = s.waiting := rfl
@[simp] theorem State.setSlot_output (id : Word) (sl : Slot) : (s.setSlot id sl).output = s.output := rfl

/-! ### addSlot -/

@[simp] theorem State.addSlot_regs (sl : Slot) : (s.addSlot sl).regs = s.regs := rfl
@[simp] theorem State.addSlot_pc (sl : Slot) : (s.addSlot sl).pc = s.pc := rfl
@[simp] theorem State.addSlot_status (sl : Slot) : (s.addSlot sl).status = s.status := rfl
@[simp] theorem State.addSlot_slots (sl : Slot) : (s.addSlot sl).slots = s.slots ++ [sl] := rfl
@[simp] theorem State.addSlot_free (sl : Slot) : (s.addSlot sl).free = s.free := rfl
@[simp] theorem State.addSlot_fault (sl : Slot) : (s.addSlot sl).fault = s.fault := rfl
@[simp] theorem State.addSlot_inFlight (sl : Slot) : (s.addSlot sl).inFlight = s.inFlight := rfl
@[simp] theorem State.addSlot_imageSource (sl : Slot) : (s.addSlot sl).imageSource = s.imageSource := rfl
@[simp] theorem State.addSlot_consoleIn (sl : Slot) : (s.addSlot sl).consoleIn = s.consoleIn := rfl
@[simp] theorem State.addSlot_consolePolls (sl : Slot) : (s.addSlot sl).consolePolls = s.consolePolls := rfl
@[simp] theorem State.addSlot_waiting (sl : Slot) : (s.addSlot sl).waiting = s.waiting := rfl
@[simp] theorem State.addSlot_output (sl : Slot) : (s.addSlot sl).output = s.output := rfl

/-! ### setFree -/

@[simp] theorem State.setFree_regs (ids : List Word) : (s.setFree ids).regs = s.regs := rfl
@[simp] theorem State.setFree_pc (ids : List Word) : (s.setFree ids).pc = s.pc := rfl
@[simp] theorem State.setFree_status (ids : List Word) : (s.setFree ids).status = s.status := rfl
@[simp] theorem State.setFree_slots (ids : List Word) : (s.setFree ids).slots = s.slots := rfl
@[simp] theorem State.setFree_free (ids : List Word) : (s.setFree ids).free = ids := rfl
@[simp] theorem State.setFree_fault (ids : List Word) : (s.setFree ids).fault = s.fault := rfl
@[simp] theorem State.setFree_inFlight (ids : List Word) : (s.setFree ids).inFlight = s.inFlight := rfl
@[simp] theorem State.setFree_imageSource (ids : List Word) : (s.setFree ids).imageSource = s.imageSource := rfl
@[simp] theorem State.setFree_consoleIn (ids : List Word) : (s.setFree ids).consoleIn = s.consoleIn := rfl
@[simp] theorem State.setFree_consolePolls (ids : List Word) : (s.setFree ids).consolePolls = s.consolePolls := rfl
@[simp] theorem State.setFree_waiting (ids : List Word) : (s.setFree ids).waiting = s.waiting := rfl
@[simp] theorem State.setFree_output (ids : List Word) : (s.setFree ids).output = s.output := rfl

/-! ### polled -/

@[simp] theorem State.addSlot_reg (sl : Slot) (q : Fin 8) : (s.addSlot sl).reg q = s.reg q := rfl
@[simp] theorem State.addSlot_consoleReply (sl : Slot) : (s.addSlot sl).consoleReply = s.consoleReply := rfl
@[simp] theorem State.setFree_reg (ids : List Word) (q : Fin 8) : (s.setFree ids).reg q = s.reg q := rfl
@[simp] theorem State.setFree_segment (ids : List Word) (i : Word) : (s.setFree ids).segment? i = s.segment? i := rfl
@[simp] theorem State.setFree_lookup (ids : List Word) (i : Word) : lookup (s.setFree ids) i = lookup s i := rfl
@[simp] theorem State.setFree_memRead (ids : List Word) (i o : Word) : memRead (s.setFree ids) i o = memRead s i o := rfl
@[simp] theorem State.setFree_programLength (ids : List Word) : (s.setFree ids).programLength = s.programLength := rfl
@[simp] theorem State.setFree_slotCount (ids : List Word) : (s.setFree ids).slotCount = s.slotCount := rfl
@[simp] theorem State.setFree_liveWords (ids : List Word) : (s.setFree ids).liveWords = s.liveWords := rfl
@[simp] theorem State.setFree_consoleReply (ids : List Word) : (s.setFree ids).consoleReply = s.consoleReply := rfl
@[simp] theorem State.polled_regs : (s.polled).regs = s.regs := rfl
@[simp] theorem State.polled_pc : (s.polled).pc = s.pc := rfl
@[simp] theorem State.polled_status : (s.polled).status = s.status := rfl
@[simp] theorem State.polled_slots : (s.polled).slots = s.slots := rfl
@[simp] theorem State.polled_free : (s.polled).free = s.free := rfl
@[simp] theorem State.polled_fault : (s.polled).fault = s.fault := rfl
@[simp] theorem State.polled_inFlight : (s.polled).inFlight = s.inFlight := rfl
@[simp] theorem State.polled_imageSource : (s.polled).imageSource = s.imageSource := rfl
@[simp] theorem State.polled_consoleIn : (s.polled).consoleIn = s.consoleIn.tail := rfl
@[simp] theorem State.polled_consolePolls : (s.polled).consolePolls = s.consolePolls + 1 := rfl
@[simp] theorem State.polled_waiting : (s.polled).waiting = none := rfl
@[simp] theorem State.polled_output : (s.polled).output = s.output := rfl

/-! ### wait -/

@[simp] theorem State.wait_regs (r : Fin 8) : (s.wait r).regs = s.regs := rfl
@[simp] theorem State.wait_pc (r : Fin 8) : (s.wait r).pc = s.pc := rfl
@[simp] theorem State.wait_status (r : Fin 8) : (s.wait r).status = s.status := rfl
@[simp] theorem State.wait_slots (r : Fin 8) : (s.wait r).slots = s.slots := rfl
@[simp] theorem State.wait_free (r : Fin 8) : (s.wait r).free = s.free := rfl
@[simp] theorem State.wait_fault (r : Fin 8) : (s.wait r).fault = s.fault := rfl
@[simp] theorem State.wait_inFlight (r : Fin 8) : (s.wait r).inFlight = s.inFlight := rfl
@[simp] theorem State.wait_imageSource (r : Fin 8) : (s.wait r).imageSource = s.imageSource := rfl
@[simp] theorem State.wait_consoleIn (r : Fin 8) : (s.wait r).consoleIn = s.consoleIn := rfl
@[simp] theorem State.wait_consolePolls (r : Fin 8) : (s.wait r).consolePolls = s.consolePolls := rfl
@[simp] theorem State.wait_waiting (r : Fin 8) : (s.wait r).waiting = some r := rfl
@[simp] theorem State.wait_output (r : Fin 8) : (s.wait r).output = s.output := rfl

/-! ### consoleWrite -/

@[simp] theorem State.consoleWrite_regs (b : Byte) : (s.consoleWrite b).regs = s.regs := rfl
@[simp] theorem State.consoleWrite_pc (b : Byte) : (s.consoleWrite b).pc = s.pc := rfl
@[simp] theorem State.consoleWrite_status (b : Byte) : (s.consoleWrite b).status = s.status := rfl
@[simp] theorem State.consoleWrite_slots (b : Byte) : (s.consoleWrite b).slots = s.slots := rfl
@[simp] theorem State.consoleWrite_free (b : Byte) : (s.consoleWrite b).free = s.free := rfl
@[simp] theorem State.consoleWrite_fault (b : Byte) : (s.consoleWrite b).fault = s.fault := rfl
@[simp] theorem State.consoleWrite_inFlight (b : Byte) : (s.consoleWrite b).inFlight = s.inFlight := rfl
@[simp] theorem State.consoleWrite_imageSource (b : Byte) : (s.consoleWrite b).imageSource = s.imageSource := rfl
@[simp] theorem State.consoleWrite_consoleIn (b : Byte) : (s.consoleWrite b).consoleIn = s.consoleIn := rfl
@[simp] theorem State.consoleWrite_consolePolls (b : Byte) : (s.consoleWrite b).consolePolls = s.consolePolls := rfl
@[simp] theorem State.consoleWrite_waiting (b : Byte) : (s.consoleWrite b).waiting = s.waiting := rfl
@[simp] theorem State.consoleWrite_output (b : Byte) : (s.consoleWrite b).output = s.output ++ [b] := rfl

/-! ### raiseFault -/

@[simp] theorem State.raiseFault_regs (f : Raised) : (s.raiseFault f).regs = s.regs := rfl
@[simp] theorem State.raiseFault_pc (f : Raised) : (s.raiseFault f).pc = s.pc := rfl
@[simp] theorem State.raiseFault_status (f : Raised) : (s.raiseFault f).status = .faulted := rfl
@[simp] theorem State.raiseFault_slots (f : Raised) : (s.raiseFault f).slots = s.slots := rfl
@[simp] theorem State.raiseFault_free (f : Raised) : (s.raiseFault f).free = s.free := rfl
@[simp] theorem State.raiseFault_fault (f : Raised) : (s.raiseFault f).fault = some ⟨f, s.inFlight.map (·.addr), s.inFlight.bind (·.word)⟩ := rfl
@[simp] theorem State.raiseFault_inFlight (f : Raised) : (s.raiseFault f).inFlight = none := rfl
@[simp] theorem State.raiseFault_imageSource (f : Raised) : (s.raiseFault f).imageSource = s.imageSource := rfl
@[simp] theorem State.raiseFault_consoleIn (f : Raised) : (s.raiseFault f).consoleIn = s.consoleIn := rfl
@[simp] theorem State.raiseFault_consolePolls (f : Raised) : (s.raiseFault f).consolePolls = s.consolePolls := rfl
@[simp] theorem State.raiseFault_waiting (f : Raised) : (s.raiseFault f).waiting = s.waiting := rfl
@[simp] theorem State.raiseFault_output (f : Raised) : (s.raiseFault f).output = s.output := rfl

/-! ### fetching -/

@[simp] theorem State.fetching_regs : (s.fetching).regs = s.regs := rfl
@[simp] theorem State.fetching_pc : (s.fetching).pc = s.pc := rfl
@[simp] theorem State.fetching_status : (s.fetching).status = s.status := rfl
@[simp] theorem State.fetching_slots : (s.fetching).slots = s.slots := rfl
@[simp] theorem State.fetching_free : (s.fetching).free = s.free := rfl
@[simp] theorem State.fetching_fault : (s.fetching).fault = s.fault := rfl
@[simp] theorem State.fetching_inFlight : (s.fetching).inFlight = some ⟨s.pc, none⟩ := rfl
@[simp] theorem State.fetching_imageSource : (s.fetching).imageSource = s.imageSource := rfl
@[simp] theorem State.fetching_consoleIn : (s.fetching).consoleIn = s.consoleIn := rfl
@[simp] theorem State.fetching_consolePolls : (s.fetching).consolePolls = s.consolePolls := rfl
@[simp] theorem State.fetching_waiting : (s.fetching).waiting = s.waiting := rfl
@[simp] theorem State.fetching_output : (s.fetching).output = s.output := rfl

/-! ### advance -/

@[simp] theorem State.advance_regs (w : Word) : (s.advance w).regs = s.regs := rfl
@[simp] theorem State.advance_pc (w : Word) : (s.advance w).pc = s.pc + 1 := rfl
@[simp] theorem State.advance_status (w : Word) : (s.advance w).status = s.status := rfl
@[simp] theorem State.advance_slots (w : Word) : (s.advance w).slots = s.slots := rfl
@[simp] theorem State.advance_free (w : Word) : (s.advance w).free = s.free := rfl
@[simp] theorem State.advance_fault (w : Word) : (s.advance w).fault = s.fault := rfl
@[simp] theorem State.advance_inFlight (w : Word) : (s.advance w).inFlight = some ⟨s.pc, some w⟩ := rfl
@[simp] theorem State.advance_imageSource (w : Word) : (s.advance w).imageSource = s.imageSource := rfl
@[simp] theorem State.advance_consoleIn (w : Word) : (s.advance w).consoleIn = s.consoleIn := rfl
@[simp] theorem State.advance_consolePolls (w : Word) : (s.advance w).consolePolls = s.consolePolls := rfl
@[simp] theorem State.advance_waiting (w : Word) : (s.advance w).waiting = s.waiting := rfl
@[simp] theorem State.advance_output (w : Word) : (s.advance w).output = s.output := rfl

/-! ### Derived readings that depend on the slots alone, or on the registers alone -/

@[simp] theorem State.setReg_segment (r : Fin 8) (v : Word) (i : Word) : (s.setReg r v).segment? i = s.segment? i := rfl
@[simp] theorem State.setReg_lookup (r : Fin 8) (v : Word) (i : Word) : lookup (s.setReg r v) i = lookup s i := rfl
@[simp] theorem State.setReg_memRead (r : Fin 8) (v : Word) (i o : Word) : memRead (s.setReg r v) i o = memRead s i o := rfl
@[simp] theorem State.setReg_programLength (r : Fin 8) (v : Word) : (s.setReg r v).programLength = s.programLength := rfl
@[simp] theorem State.setReg_slotCount (r : Fin 8) (v : Word) : (s.setReg r v).slotCount = s.slotCount := rfl
@[simp] theorem State.setReg_liveWords (r : Fin 8) (v : Word) : (s.setReg r v).liveWords = s.liveWords := rfl
@[simp] theorem State.setReg_consoleReply (r : Fin 8) (v : Word) : (s.setReg r v).consoleReply = s.consoleReply := rfl
@[simp] theorem State.setPc_reg (v : Word) (q : Fin 8) : (s.setPc v).reg q = s.reg q := rfl
@[simp] theorem State.setPc_segment (v : Word) (i : Word) : (s.setPc v).segment? i = s.segment? i := rfl
@[simp] theorem State.setPc_lookup (v : Word) (i : Word) : lookup (s.setPc v) i = lookup s i := rfl
@[simp] theorem State.setPc_memRead (v : Word) (i o : Word) : memRead (s.setPc v) i o = memRead s i o := rfl
@[simp] theorem State.setPc_programLength (v : Word) : (s.setPc v).programLength = s.programLength := rfl
@[simp] theorem State.setPc_slotCount (v : Word) : (s.setPc v).slotCount = s.slotCount := rfl
@[simp] theorem State.setPc_liveWords (v : Word) : (s.setPc v).liveWords = s.liveWords := rfl
@[simp] theorem State.setPc_consoleReply (v : Word) : (s.setPc v).consoleReply = s.consoleReply := rfl
@[simp] theorem State.setSlot_reg (id : Word) (sl : Slot) (q : Fin 8) : (s.setSlot id sl).reg q = s.reg q := rfl
@[simp] theorem State.setSlot_consoleReply (id : Word) (sl : Slot) : (s.setSlot id sl).consoleReply = s.consoleReply := rfl
@[simp] theorem State.polled_reg (q : Fin 8) : (s.polled).reg q = s.reg q := rfl
@[simp] theorem State.polled_segment (i : Word) : (s.polled).segment? i = s.segment? i := rfl
@[simp] theorem State.polled_lookup (i : Word) : lookup (s.polled) i = lookup s i := rfl
@[simp] theorem State.polled_memRead (i o : Word) : memRead (s.polled) i o = memRead s i o := rfl
@[simp] theorem State.polled_programLength : (s.polled).programLength = s.programLength := rfl
@[simp] theorem State.polled_slotCount : (s.polled).slotCount = s.slotCount := rfl
@[simp] theorem State.polled_liveWords : (s.polled).liveWords = s.liveWords := rfl
@[simp] theorem State.wait_reg (r : Fin 8) (q : Fin 8) : (s.wait r).reg q = s.reg q := rfl
@[simp] theorem State.wait_segment (r : Fin 8) (i : Word) : (s.wait r).segment? i = s.segment? i := rfl
@[simp] theorem State.wait_lookup (r : Fin 8) (i : Word) : lookup (s.wait r) i = lookup s i := rfl
@[simp] theorem State.wait_memRead (r : Fin 8) (i o : Word) : memRead (s.wait r) i o = memRead s i o := rfl
@[simp] theorem State.wait_programLength (r : Fin 8) : (s.wait r).programLength = s.programLength := rfl
@[simp] theorem State.wait_slotCount (r : Fin 8) : (s.wait r).slotCount = s.slotCount := rfl
@[simp] theorem State.wait_liveWords (r : Fin 8) : (s.wait r).liveWords = s.liveWords := rfl
@[simp] theorem State.consoleWrite_reg (b : Byte) (q : Fin 8) : (s.consoleWrite b).reg q = s.reg q := rfl
@[simp] theorem State.consoleWrite_segment (b : Byte) (i : Word) : (s.consoleWrite b).segment? i = s.segment? i := rfl
@[simp] theorem State.consoleWrite_lookup (b : Byte) (i : Word) : lookup (s.consoleWrite b) i = lookup s i := rfl
@[simp] theorem State.consoleWrite_memRead (b : Byte) (i o : Word) : memRead (s.consoleWrite b) i o = memRead s i o := rfl
@[simp] theorem State.consoleWrite_programLength (b : Byte) : (s.consoleWrite b).programLength = s.programLength := rfl
@[simp] theorem State.consoleWrite_slotCount (b : Byte) : (s.consoleWrite b).slotCount = s.slotCount := rfl
@[simp] theorem State.consoleWrite_liveWords (b : Byte) : (s.consoleWrite b).liveWords = s.liveWords := rfl
@[simp] theorem State.consoleWrite_consoleReply (b : Byte) : (s.consoleWrite b).consoleReply = s.consoleReply := rfl
@[simp] theorem State.raiseFault_reg (f : Raised) (q : Fin 8) : (s.raiseFault f).reg q = s.reg q := rfl
@[simp] theorem State.raiseFault_segment (f : Raised) (i : Word) : (s.raiseFault f).segment? i = s.segment? i := rfl
@[simp] theorem State.raiseFault_lookup (f : Raised) (i : Word) : lookup (s.raiseFault f) i = lookup s i := rfl
@[simp] theorem State.raiseFault_memRead (f : Raised) (i o : Word) : memRead (s.raiseFault f) i o = memRead s i o := rfl
@[simp] theorem State.raiseFault_programLength (f : Raised) : (s.raiseFault f).programLength = s.programLength := rfl
@[simp] theorem State.raiseFault_slotCount (f : Raised) : (s.raiseFault f).slotCount = s.slotCount := rfl
@[simp] theorem State.raiseFault_liveWords (f : Raised) : (s.raiseFault f).liveWords = s.liveWords := rfl
@[simp] theorem State.raiseFault_consoleReply (f : Raised) : (s.raiseFault f).consoleReply = s.consoleReply := rfl
@[simp] theorem State.fetching_reg (q : Fin 8) : (s.fetching).reg q = s.reg q := rfl
@[simp] theorem State.fetching_segment (i : Word) : (s.fetching).segment? i = s.segment? i := rfl
@[simp] theorem State.fetching_lookup (i : Word) : lookup (s.fetching) i = lookup s i := rfl
@[simp] theorem State.fetching_memRead (i o : Word) : memRead (s.fetching) i o = memRead s i o := rfl
@[simp] theorem State.fetching_programLength : (s.fetching).programLength = s.programLength := rfl
@[simp] theorem State.fetching_slotCount : (s.fetching).slotCount = s.slotCount := rfl
@[simp] theorem State.fetching_liveWords : (s.fetching).liveWords = s.liveWords := rfl
@[simp] theorem State.fetching_consoleReply : (s.fetching).consoleReply = s.consoleReply := rfl
@[simp] theorem State.advance_reg (w : Word) (q : Fin 8) : (s.advance w).reg q = s.reg q := rfl
@[simp] theorem State.advance_segment (w : Word) (i : Word) : (s.advance w).segment? i = s.segment? i := rfl
@[simp] theorem State.advance_lookup (w : Word) (i : Word) : lookup (s.advance w) i = lookup s i := rfl
@[simp] theorem State.advance_memRead (w : Word) (i o : Word) : memRead (s.advance w) i o = memRead s i o := rfl
@[simp] theorem State.advance_programLength (w : Word) : (s.advance w).programLength = s.programLength := rfl
@[simp] theorem State.advance_slotCount (w : Word) : (s.advance w).slotCount = s.slotCount := rfl
@[simp] theorem State.advance_liveWords (w : Word) : (s.advance w).liveWords = s.liveWords := rfl
@[simp] theorem State.advance_consoleReply (w : Word) : (s.advance w).consoleReply = s.consoleReply := rfl

/-! ### Registers: read after write (10_state.md R16) -/

@[simp] theorem State.reg_setReg_same (r : Fin 8) (v : Word) : (s.setReg r v).reg r = v := by
  simp [State.reg, State.setReg]

theorem State.reg_setReg_other (r q : Fin 8) (v : Word) (h : q ≠ r) : (s.setReg r v).reg q = s.reg q := by
  have hn : (r : Nat) ≠ q := fun e => h (Fin.ext e.symm)
  simp [State.reg, State.setReg, hn]

theorem State.reg_setReg (r q : Fin 8) (v : Word) :
    (s.setReg r v).reg q = if q = r then v else s.reg q := by
  by_cases h : q = r
  · subst h; simp
  · simp [h, State.reg_setReg_other]

/-! ### Settling an operation -/

@[simp] theorem State.settle_ok (t : State) : s.settle (.ok t) = t := rfl

@[simp] theorem State.settle_error (f : Raised) : s.settle (.error f) = s.raiseFault f := rfl

theorem State.raiseFault_entered (f : Raised) : FaultEntered f s (s.raiseFault f) := rfl

/-- What an attempted operation answers: its state, or the state it started from with the fault entered. -/
theorem attempt_cases {r : Except Raised State} {t : State} (h : attempt s r = .next t) :
    r = .ok t ∨ ∃ f, r = .error f ∧ t = s.raiseFault f := by
  cases r with
  | ok u => simp only [attempt, State.settle_ok, Host.Outcome.next.injEq] at h; exact .inl (by rw [h])
  | error f => simp only [attempt, State.settle_error, Host.Outcome.next.injEq] at h; exact .inr ⟨f, rfl, h.symm⟩

@[simp] theorem attempt_ok (t : State) : attempt s (.ok t) = .next t := rfl

@[simp] theorem attempt_error (f : Raised) : attempt s (.error f) = .next (s.raiseFault f) := rfl

/-! ### Sequencing -/

@[simp] theorem bind_ok {α β : Type} (x : α) (f : α → Except Raised β) : (Except.ok x >>= f) = f x := rfl

@[simp] theorem bind_error {α β : Type} (e : Raised) (f : α → Except Raised β) :
    (Except.error e >>= f) = .error e := rfl

/-- A sequence answers `ok` exactly when both its parts do. -/
theorem bind_eq_ok {α β : Type} {x : Except Raised α} {f : α → Except Raised β} {y : β} :
    (x >>= f) = .ok y ↔ ∃ a, x = .ok a ∧ f a = .ok y := by
  cases x with
  | ok a => simp
  | error e => simp

/-- A sequence faults when its first part does, or its second after it. -/
theorem bind_eq_error {α β : Type} {x : Except Raised α} {f : α → Except Raised β} {e : Raised} :
    (x >>= f) = .error e ↔ x = .error e ∨ ∃ a, x = .ok a ∧ f a = .error e := by
  cases x with
  | ok a => simp
  | error e' => simp

/-! ### The register check -/

@[simp] theorem regIx_fin (r : Fin 8) : regIx r = .ok r := by simp [regIx]

theorem regIx_eq_ok {i : Nat} {r : Fin 8} : regIx i = .ok r ↔ i = r := by
  unfold regIx
  split
  · rename_i h
    constructor
    · intro e; cases e; rfl
    · rintro rfl; rfl
  · rename_i h
    constructor
    · intro e; cases e
    · rintro rfl; exact absurd r.isLt h

theorem regIx_eq_error {i : Nat} {f : Raised} : regIx i = .error f ↔ 7 < i ∧ f = .invalidRegister i := by
  unfold regIx
  split
  · rename_i h
    constructor
    · intro e; cases e
    · rintro ⟨h', -⟩; omega
  · rename_i h
    constructor
    · intro e; cases e; exact ⟨by omega, rfl⟩
    · rintro ⟨_, rfl⟩; rfl

/-! ### The end of an instruction -/

theorem State.finish_of_completed (h : s.status = .running) (hw : s.waiting = none) :
    s.finish = { s with
      inFlight := none
      status := if s.pc = s.programLength then .terminated else .running } := by
  simp [State.finish, h, hw]

theorem State.finish_of_not_running (h : s.status ≠ .running) : s.finish = s := by
  unfold State.finish; split
  · contradiction
  · rfl

theorem State.finish_of_waiting {c : Fin 8} (h : s.waiting = some c) : s.finish = s := by
  unfold State.finish; split
  · rename_i hw; rw [h] at hw; cases hw
  · rfl

/-- The end of an instruction changes at most the run status and the note of the instruction in progress. -/
theorem State.finish_keeps :
    s.finish.regs = s.regs ∧ s.finish.pc = s.pc ∧ s.finish.slots = s.slots ∧ s.finish.free = s.free ∧
      s.finish.fault = s.fault ∧ s.finish.imageSource = s.imageSource ∧ s.finish.consoleIn = s.consoleIn ∧
      s.finish.consolePolls = s.consolePolls ∧ s.finish.waiting = s.waiting ∧ s.finish.output = s.output := by
  unfold State.finish; split <;> exact ⟨rfl, rfl, rfl, rfl, rfl, rfl, rfl, rfl, rfl, rfl⟩

/-! ### Runs -/

/-- What holds at a state and is kept by every step holds of every state reached from it. -/
theorem Reaches.keeps {P : State → Prop} (keep : ∀ s t, P s → step s = .next t → P t) {s t : State}
    (h : Reaches s t) (hs : P s) : P t := by
  induction h with
  | refl => exact hs
  | more _ hst ih => exact keep _ _ ih hst

end Sys2Proof.Machine
end

