-- ==== Sys2Proof/Laws/Codec.lean ====
section
/-! SUPPORT. The bit-field codec bit by bit: what each codec body reads or replaces (30_encoding.md R81 to R87). Proofs
about encoding, decoding and image load cite these and unfold no shift or mask. -/

namespace Sys2Proof.Machine.Codec

/-! ### The domain -/

theorem inDomain_iff {w lsb : Nat} : inDomain w lsb = true ↔ w ≤ 64 ∧ lsb + w ≤ 64 := by
  simp [inDomain]

theorem guarded_in {α : Type} {w lsb : Nat} (h : w ≤ 64 ∧ lsb + w ≤ 64) (b : Except Raised α) :
    guarded w lsb b = b := by
  simp [guarded, inDomain_iff.2 h]

theorem guarded_out {α : Type} {w lsb : Nat} (h : ¬(w ≤ 64 ∧ lsb + w ≤ 64)) (b : Except Raised α) :
    guarded w lsb b = .error (.codecArgument w lsb) := by
  have hd : inDomain w lsb = false := by
    cases hc : inDomain w lsb
    · rfl
    · exact absurd (inDomain_iff.1 hc) h
  simp [guarded, hd]

/-! ### Masks -/

theorem mask_toNat {w : Nat} (h : w ≤ 64) : (mask w).toNat = 2 ^ w - 1 := by
  rcases Nat.lt_or_eq_of_le h with h' | rfl
  · have h1 : (2 : Nat) ^ w < 2 ^ 64 := Nat.pow_lt_pow_right (by omega) h'
    have h2 : (1#64 <<< w).toNat = 2 ^ w := by
      rw [BitVec.toNat_shiftLeft, Nat.shiftLeft_eq]
      simp only [BitVec.toNat_ofNat, Nat.reducePow, Nat.one_mod, Nat.one_mul]
      exact Nat.mod_eq_of_lt h1
    have h3 : 1 ≤ 2 ^ w := Nat.one_le_two_pow
    rw [mask, BitVec.toNat_sub, h2]
    simp only [BitVec.toNat_ofNat]
    omega
  · decide

theorem mask_getLsbD {w : Nat} (h : w ≤ 64) (i : Nat) : (mask w).getLsbD i = decide (i < w) := by
  rw [BitVec.getLsbD, mask_toNat h, Nat.testBit_two_pow_sub_one]

/-! ### Unsigned fields -/

theorem fitsUBody_iff {v : Carrier} {w : Nat} (h : w ≤ 64) : fitsUBody v w = true ↔ v.toNat < 2 ^ w := by
  unfold fitsUBody
  split
  · subst w
    exact ⟨fun _ => v.isLt, fun _ => rfl⟩
  · simp

/-- A value that fits `w` bits has no bit at or above `w`. -/
theorem getLsbD_of_fits {v : Carrier} {w i : Nat} (h : v.toNat < 2 ^ w) (hi : w ≤ i) : v.getLsbD i = false :=
  Nat.testBit_lt_two_pow (Nat.lt_of_lt_of_le h (Nat.pow_le_pow_right (by omega) hi))

theorem getUBody_getLsbD {w : Nat} (h : w ≤ 64) (word : Carrier) (lsb i : Nat) :
    (getUBody word w lsb).getLsbD i = (decide (i < w) && word.getLsbD (lsb + i)) := by
  unfold getUBody
  split
  · subst w; simp
  · rw [BitVec.getLsbD_and, BitVec.getLsbD_ushiftRight, mask_getLsbD h, Bool.and_comm]

theorem getUBody_fits {w : Nat} (h : w ≤ 64) (word : Carrier) (lsb : Nat) :
    (getUBody word w lsb).toNat < 2 ^ w := by
  unfold getUBody
  split
  · subst w; simp
  · rw [BitVec.toNat_and, mask_toNat h]
    have h1 := Nat.and_le_right (n := (word >>> lsb).toNat) (m := 2 ^ w - 1)
    have h3 : 1 ≤ 2 ^ w := Nat.one_le_two_pow
    omega

theorem setUBody_getLsbD {w lsb : Nat} (h : w ≤ 64 ∧ lsb + w ≤ 64) (word v : Carrier) (hv : v.toNat < 2 ^ w) (i : Nat)
    (hi : i < 64) :
    (setUBody word w lsb v).getLsbD i =
      if lsb ≤ i ∧ i < lsb + w then v.getLsbD (i - lsb) else word.getLsbD i := by
  unfold setUBody
  by_cases hw : w = 0
  · subst w
    simp
  · rw [if_neg hw]
    simp only [BitVec.getLsbD_or, BitVec.getLsbD_and, BitVec.getLsbD_not, BitVec.getLsbD_shiftLeft, hi,
      mask_getLsbD h.1, decide_true, Bool.true_and]
    by_cases h1 : i < lsb
    · have : ¬(lsb ≤ i ∧ i < lsb + w) := by omega
      simp [h1, this]
    · by_cases h2 : i - lsb < w
      · have : lsb ≤ i ∧ i < lsb + w := by omega
        simp [h1, h2, this]
      · have h3 : ¬(lsb ≤ i ∧ i < lsb + w) := by omega
        have h4 := getLsbD_of_fits hv (Nat.le_of_not_lt h2)
        simp [h1, h2, h3, h4]

/-! ### Signed fields -/

theorem fitsSBody_iff {v : Carrier} {w : Nat} (h : w ≤ 64) :
    fitsSBody v w = true ↔
      (w = 0 ∧ v = 0) ∨ (0 < w ∧ -(2 : Int) ^ (w - 1) ≤ v.toInt ∧ v.toInt < (2 : Int) ^ (w - 1)) := by
  have h0 : v.toInt = 0 ↔ v = 0 := by
    constructor
    · intro e; apply BitVec.eq_of_toInt_eq; simpa using e
    · rintro rfl; simp
  unfold fitsSBody
  split
  · subst w; simp [h0]
  · split
    · subst w
      have h1 := BitVec.le_toInt v
      have h2 := BitVec.toInt_lt (x := v)
      simp only [Nat.reduceSub] at h1 h2 ⊢
      exact ⟨fun _ => .inr ⟨by omega, h1, h2⟩, fun _ => trivial⟩
    · rename_i hz _
      simp only [Bool.and_eq_true, decide_eq_true_eq]
      exact ⟨fun h => .inr ⟨by omega, h.1, h.2⟩, fun h => by rcases h with h | h <;> omega⟩

/-- The bits of GetS: the field's, and above them copies of its top bit. -/
theorem getSBody_getLsbD {w : Nat} (h : w ≤ 64) (hw : 0 < w) (word : Carrier) (lsb i : Nat) (hi : i < 64) :
    (getSBody word w lsb).getLsbD i = word.getLsbD (lsb + min i (w - 1)) := by
  have hbit : ∀ j, (getUBody word w lsb).getLsbD j = (decide (j < w) && word.getLsbD (lsb + j)) :=
    getUBody_getLsbD h word lsb
  have htop : (getUBody word w lsb).getLsbD (w - 1) = word.getLsbD (lsb + (w - 1)) := by
    rw [hbit]; simp [Nat.sub_lt hw]
  unfold getSBody
  rw [if_neg (by omega)]
  split
  · rename_i ht
    -- subtracting 2^w sets every bit at or above w
    have hor : getUBody word w lsb - (1#64 <<< w) = getUBody word w lsb ||| ~~~(mask w) := by
      have hadd : getUBody word w lsb - (1#64 <<< w) = getUBody word w lsb + ~~~(mask w) := by
        rw [BitVec.not_eq_neg_add, mask]
        ring
      rw [hadd, BitVec.add_eq_or_of_and_eq_zero]
      apply BitVec.eq_of_getLsbD_eq
      intro j hj
      simp only [BitVec.getLsbD_and, BitVec.getLsbD_not, hj, decide_true, Bool.true_and, hbit, mask_getLsbD h,
        BitVec.getLsbD_zero]
      cases decide (j < w) <;> simp
    rw [hor, BitVec.getLsbD_or, BitVec.getLsbD_not, mask_getLsbD h, hbit]
    by_cases hiw : i < w
    · have : min i (w - 1) = i := by omega
      simp [hiw, this]
    · have : min i (w - 1) = w - 1 := by omega
      rw [this, ← htop, ht]
      simp [hiw, hi]
  · rename_i ht
    rw [hbit]
    by_cases hiw : i < w
    · have : min i (w - 1) = i := by omega
      simp [hiw, this]
    · have : min i (w - 1) = w - 1 := by omega
      rw [this, ← htop]
      simp [hiw]
      simpa using ht

/-- The low `w` bits of a carrier fit `w` bits. -/
theorem and_mask_fits {w : Nat} (h : w ≤ 64) (v : Carrier) : (v &&& mask w).toNat < 2 ^ w := by
  rw [BitVec.toNat_and, mask_toNat h]
  have h1 := Nat.and_le_right (n := v.toNat) (m := 2 ^ w - 1)
  have h3 : 1 ≤ 2 ^ w := Nat.one_le_two_pow
  omega

theorem and_mask_getLsbD {w : Nat} (h : w ≤ 64) (v : Carrier) (i : Nat) :
    (v &&& mask w).getLsbD i = (decide (i < w) && v.getLsbD i) := by
  rw [BitVec.getLsbD_and, mask_getLsbD h, Bool.and_comm]

end Sys2Proof.Machine.Codec
end

