-- ==== Sys2Proof/Laws/Decode.lean ====
section
/-! SUPPORT. The codec on instruction words: what a field of a zero-extended word is, and when the encoder's insertions
succeed. -/

namespace Sys2Proof

open Machine Machine.Codec

/-- A field of a word zero-extended to the carrier is that field of the word (30_encoding.md R68, R83). -/
theorem getUBody_zeroExtend (w : Word) (n lsb : Nat) (h : n ≤ 64) :
    (getUBody (w.zeroExtend 64) n lsb).toNat = (w.extractLsb' lsb n).toNat := by
  apply Nat.eq_of_testBit_eq
  intro i
  have h1 := getUBody_getLsbD h (w.zeroExtend 64) lsb i
  rw [BitVec.getLsbD] at h1
  rw [h1, ← BitVec.getLsbD, BitVec.getLsbD_extractLsb']
  by_cases hi : i < n
  · simp only [hi, decide_true, Bool.true_and, BitVec.getLsbD_setWidth]
    by_cases h64 : lsb + i < 64
    · simp [h64]
    · have : w.getLsbD (lsb + i) = false := BitVec.getLsbD_of_ge _ _ (by omega)
      simp [this]
  · simp [hi]

/-- The checked extractor on a word, inside the domain. -/
theorem getU_word (w : Word) (n lsb : Nat) (h : n ≤ 64 ∧ lsb + n ≤ 64) :
    getU (w.zeroExtend 64) n lsb = .ok (getUBody (w.zeroExtend 64) n lsb) :=
  guarded_in h _

/-- Inserting a number that fits its field. -/
theorem insertField_ok {w lsb v : Nat} (h : w ≤ 64 ∧ lsb + w ≤ 64) (word : Carrier) (hv : v < 2 ^ w) :
    insertField word w lsb v = .ok (setUBody word w lsb (BitVec.ofNat 64 v)) := by
  have h64 : v < 2 ^ 64 := Nat.lt_of_lt_of_le hv (Nat.pow_le_pow_right (by omega) h.1)
  have hn : (BitVec.ofNat 64 v).toNat = v := by rw [BitVec.toNat_ofNat]; exact Nat.mod_eq_of_lt h64
  have hf : fitsUBody (BitVec.ofNat 64 v) w = true := (fitsUBody_iff h.1).2 (by rw [hn]; exact hv)
  rw [insertField, if_pos h64, setU, guarded_in h, if_pos hf]

/-- A number that does not fit its field is refused (30_encoding.md R85). -/
theorem insertField_error {w lsb v : Nat} (h : w ≤ 64 ∧ lsb + w ≤ 64) (word : Carrier) (hv : 2 ^ w ≤ v) :
    insertField word w lsb v = .error (.overflow (v : Int) w) := by
  unfold insertField
  split
  · rename_i h64
    have hn : (BitVec.ofNat 64 v).toNat = v := by rw [BitVec.toNat_ofNat]; exact Nat.mod_eq_of_lt h64
    have hf : ¬ fitsUBody (BitVec.ofNat 64 v) w = true := fun e => by
      have := (fitsUBody_iff h.1).1 e
      omega
    rw [setU, guarded_in h, if_neg hf, hn]
  · rfl

/-- The encoder of Format S on fields that fit. -/
theorem encodeS_ok {op a b c : Nat} (hop : op < 16) (ha : a < 8) (hb : b < 8) (hc : c < 8) :
    encodeS op a b c = .ok
      ((setUBody (setUBody (setUBody (setUBody 0 4 28 (BitVec.ofNat 64 op)) 3 6 (BitVec.ofNat 64 a)) 3 3
        (BitVec.ofNat 64 b)) 3 0 (BitVec.ofNat 64 c)).truncate 32) := by
  unfold encodeS
  rw [insertField_ok (by omega) _ (by omega), bind_ok, insertField_ok (by omega) _ (by omega), bind_ok,
    insertField_ok (by omega) _ (by omega), bind_ok, insertField_ok (by omega) _ (by omega), bind_ok]
  rfl

/-- The encoder of Format I on a register index that fits. -/
theorem encodeI_ok {a : Nat} (ha : a < 8) (literal : BitVec 25) :
    encodeI a literal = .ok
      ((setUBody (setUBody (setUBody 0 4 28 (BitVec.ofNat 64 13)) 3 25 (BitVec.ofNat 64 a)) 25 0
        (BitVec.ofNat 64 literal.toNat)).truncate 32) := by
  unfold encodeI
  rw [insertField_ok (by omega) _ (by omega), bind_ok, insertField_ok (by omega) _ (by omega), bind_ok,
    insertField_ok (by omega) _ literal.isLt, bind_ok]
  rfl

theorem Instr.wellFormed_iff (i : Instr) : i.wellFormed = true ↔ ∀ r ∈ i.registers, r < 8 := by
  simp only [Instr.wellFormed, List.all_eq_true, decide_eq_true_eq]
  exact ⟨fun h r hr => by have := h r hr; omega, fun h r hr => by have := h r hr; omega⟩

end Sys2Proof
end

