-- ==== Sys2Proof/Laws/Store.lean ====
section
/-! SUPPORT. The segment store: cells, segments, and one lemma per store operation that says everything it can do. The
last section proves that every operation keeps the store's invariants, the canonical form of memory among them. -/

namespace Sys2Proof.Machine

/-! ### Cells -/

/-- Offsets strictly rising. -/
abbrev Cells.Rising (cells : List (Nat × Word)) : Prop := cells.Pairwise (fun p q => p.1 < q.1)

theorem Cells.get_of_forall_ne {cells : List (Nat × Word)} {o : Nat} (h : ∀ p ∈ cells, p.1 ≠ o) :
    Cells.get cells o = 0 := by
  induction cells with
  | nil => rfl
  | cons p rest ih =>
    obtain ⟨k, v⟩ := p
    have hk : k ≠ o := h (k, v) (by simp)
    rw [Cells.get, if_neg hk]
    exact ih (fun q hq => h q (by simp [hq]))

theorem Cells.get_of_mem {cells : List (Nat × Word)} (h : Cells.Rising cells) {p : Nat × Word} (hp : p ∈ cells) :
    Cells.get cells p.1 = p.2 := by
  induction cells with
  | nil => simp at hp
  | cons q rest ih =>
    obtain ⟨k, v⟩ := q
    rw [Cells.Rising, List.pairwise_cons] at h
    rcases List.mem_cons.1 hp with rfl | hp'
    · simp [Cells.get]
    · have : k ≠ p.1 := Nat.ne_of_lt (h.1 p hp')
      rw [Cells.get, if_neg this]
      exact ih h.2 hp'

/-- What a write lists: what was listed, and the written word where it is not 0. -/
theorem Cells.mem_set {cells : List (Nat × Word)} {o : Nat} {w : Word} {p : Nat × Word}
    (h : p ∈ Cells.set cells o w) : p ∈ cells ∨ (p = (o, w) ∧ w ≠ 0) := by
  induction cells with
  | nil =>
    unfold Cells.set at h
    split at h
    · simp at h
    · rename_i hw; exact .inr ⟨by simpa using h, hw⟩
  | cons q rest ih =>
    obtain ⟨k, v⟩ := q
    unfold Cells.set at h
    split at h
    · split at h
      · exact .inl h
      · rename_i hw
        rcases List.mem_cons.1 h with h | h
        · exact .inr ⟨h, hw⟩
        · exact .inl h
    · split at h
      · split at h
        · exact .inl (List.mem_cons_of_mem _ h)
        · rename_i hw
          rcases List.mem_cons.1 h with h | h
          · exact .inr ⟨h, hw⟩
          · exact .inl (List.mem_cons_of_mem _ h)
      · rcases List.mem_cons.1 h with h | h
        · exact .inl (by simp [h])
        · exact (ih h).imp (List.mem_cons_of_mem _) id

theorem Cells.set_rising {cells : List (Nat × Word)} (h : Cells.Rising cells) (o : Nat) (w : Word) :
    Cells.Rising (Cells.set cells o w) := by
  induction cells with
  | nil => unfold Cells.set; split <;> simp [Cells.Rising]
  | cons q rest ih =>
    obtain ⟨k, v⟩ := q
    have hc := List.pairwise_cons.1 h
    unfold Cells.set
    split
    · rename_i hlt
      split
      · exact h
      · refine List.pairwise_cons.2 ⟨fun p hp => ?_, h⟩
        rcases List.mem_cons.1 hp with rfl | hp
        · exact hlt
        · exact Nat.lt_trans hlt (hc.1 p hp)
    · split
      · rename_i heq
        split
        · exact hc.2
        · exact List.pairwise_cons.2 ⟨fun p hp => heq ▸ hc.1 p hp, hc.2⟩
      · refine List.pairwise_cons.2 ⟨fun p hp => ?_, ih hc.2⟩
        rcases Cells.mem_set hp with hp | ⟨rfl, -⟩
        · exact hc.1 p hp
        · show k < o
          omega

/-- A read after a write: the written word at its offset, the old word elsewhere. -/
theorem Cells.get_set {cells : List (Nat × Word)} (h : Cells.Rising cells) (o : Nat) (w : Word) (q : Nat) :
    Cells.get (Cells.set cells o w) q = if q = o then w else Cells.get cells q := by
  induction cells with
  | nil =>
    unfold Cells.set
    by_cases hq : q = o
    · subst hq; split <;> simp_all [Cells.get]
    · have : ¬ o = q := fun e => hq e.symm
      split <;> simp [Cells.get, this]
  | cons p rest ih =>
    obtain ⟨k, v⟩ := p
    have hc := List.pairwise_cons.1 h
    have hfree : ∀ o', o' ≤ k → Cells.get rest o' = 0 := fun o' ho' =>
      Cells.get_of_forall_ne (fun p hp e => by have := hc.1 p hp; simp only at this; omega)
    unfold Cells.set
    by_cases h1 : o < k
    · rw [if_pos h1]
      by_cases hq : q = o
      · subst hq
        have hk : ¬ k = q := by omega
        split
        · rename_i hw; simp [Cells.get, hk, hfree q (by omega), hw]
        · simp [Cells.get]
      · have : ¬ o = q := fun e => hq e.symm
        split <;> simp [Cells.get, this]
    · rw [if_neg h1]
      by_cases h2 : o = k
      · subst h2
        rw [if_pos rfl]
        by_cases hq : q = o
        · subst hq
          split <;> simp_all [Cells.get]
        · have : ¬ o = q := fun e => hq e.symm
          split <;> simp [Cells.get, this]
      · rw [if_neg h2]
        by_cases hk : k = q
        · have : ¬ q = o := by omega
          simp [Cells.get, hk, this]
        · simp only [Cells.get, if_neg hk]
          exact ih hc.2

theorem Cells.mem_ofWords {ws : List Word} {k : Nat} {p : Nat × Word} (h : p ∈ Cells.ofWords k ws) :
    k ≤ p.1 ∧ p.1 < k + ws.length ∧ p.2 ≠ 0 := by
  induction ws generalizing k with
  | nil => simp [Cells.ofWords] at h
  | cons w rest ih =>
    unfold Cells.ofWords at h
    simp only [List.length_cons]
    split at h
    · have := ih h; exact ⟨by omega, by omega, this.2.2⟩
    · rename_i hw
      rcases List.mem_cons.1 h with rfl | h
      · exact ⟨Nat.le_refl _, by simp, hw⟩
      · have := ih h
        exact ⟨by omega, by omega, this.2.2⟩

theorem Cells.ofWords_rising (ws : List Word) (k : Nat) : Cells.Rising (Cells.ofWords k ws) := by
  induction ws generalizing k with
  | nil => simp [Cells.ofWords, Cells.Rising]
  | cons w rest ih =>
    unfold Cells.ofWords
    split
    · exact ih (k + 1)
    · refine List.pairwise_cons.2 ⟨fun p hp => ?_, ih (k + 1)⟩
      have := (Cells.mem_ofWords hp).1
      show k < p.1
      omega

/-- Consecutive words read back in order. -/
theorem Cells.get_ofWords (ws : List Word) (k i : Nat) : Cells.get (Cells.ofWords k ws) (k + i) = ws.getD i 0 := by
  induction ws generalizing k i with
  | nil => simp [Cells.ofWords, Cells.get]
  | cons w rest ih =>
    cases i with
    | zero =>
      unfold Cells.ofWords
      split
      · rename_i hw
        rw [Cells.get_of_forall_ne (fun p hp e => by have := (Cells.mem_ofWords hp).1; omega)]
        simp [hw]
      · simp [Cells.get]
    | succ i =>
      have hi : k + (i + 1) = k + 1 + i := by omega
      unfold Cells.ofWords
      split
      · rw [hi, ih (k + 1) i]; simp
      · rw [Cells.get, if_neg (by omega), hi, ih (k + 1) i]; simp

/-! ### Segments -/

theorem Segment.wf_iff (g : Segment) :
    g.wf = true ↔ Cells.Rising g.cells ∧ ∀ p ∈ g.cells, p.1 < g.len.toNat ∧ p.2 ≠ 0 := by
  simp [Segment.wf, Cells.Rising]

theorem Segment.zeros_wf (n : Word) : (Segment.zeros n).wf = true := by
  simp [Segment.wf_iff, Segment.zeros, Cells.Rising]

@[simp] theorem Segment.zeros_len (n : Word) : (Segment.zeros n).len = n := rfl

@[simp] theorem Segment.zeros_get (n o : Word) : (Segment.zeros n).get o = 0 := rfl

@[simp] theorem Segment.set_len (g : Segment) (o w : Word) : (g.set o w).len = g.len := rfl

theorem Segment.set_wf {g : Segment} (h : g.wf = true) {o : Word} (ho : o < g.len) (w : Word) :
    (g.set o w).wf = true := by
  rw [Segment.wf_iff] at h ⊢
  refine ⟨Cells.set_rising h.1 _ _, fun p hp => ?_⟩
  rcases Cells.mem_set hp with hp | ⟨rfl, hw⟩
  · exact h.2 p hp
  · exact ⟨BitVec.lt_def.1 ho, hw⟩

theorem Segment.get_set {g : Segment} (h : g.wf = true) (o w q : Word) :
    (g.set o w).get q = if q = o then w else g.get q := by
  rw [Segment.wf_iff] at h
  unfold Segment.get Segment.set
  rw [Cells.get_set h.1]
  simp [BitVec.toNat_inj]

theorem Segment.ofWords_wf {ws : List Word} (h : ws.length < 2 ^ 32) : (Segment.ofWords ws).wf = true := by
  rw [Segment.wf_iff]
  refine ⟨Cells.ofWords_rising ws 0, fun p hp => ?_⟩
  have hm := Cells.mem_ofWords hp
  refine ⟨?_, hm.2.2⟩
  show p.1 < (BitVec.ofNat 32 ws.length).toNat
  rw [BitVec.toNat_ofNat, Nat.mod_eq_of_lt h]
  omega

theorem Segment.ofWords_get (ws : List Word) (o : Word) : (Segment.ofWords ws).get o = ws.getD o.toNat 0 := by
  have := Cells.get_ofWords ws 0 o.toNat
  simpa [Segment.get, Segment.ofWords] using this

/-! ### Slots -/

theorem Memory.wf_iff (slots : List Slot) :
    Memory.wf slots = true ↔ ∀ (k : Nat) (g : Segment), slots[k]? = some (.mapped g) → g.wf = true := by
  unfold Memory.wf
  rw [List.all_eq_true]
  constructor
  · intro h k g hk
    exact h _ (List.mem_of_getElem? hk)
  · intro h sl hsl
    obtain ⟨k, hk⟩ := List.mem_iff_getElem?.1 hsl
    cases sl with
    | unmapped => rfl
    | mapped g => exact h k g hk

theorem State.segment?_eq_some {s : State} {id : Word} {g : Segment} :
    s.segment? id = some g ↔ s.slots[id.toNat]? = some (.mapped g) := by
  unfold State.segment?
  split
  · rename_i h; rw [h]; simp
  · rename_i h
    constructor
    · intro e; cases e
    · intro e; exact absurd e (h g)

theorem State.segment?_wf {s : State} (h : Memory.wf s.slots = true) {id : Word} {g : Segment}
    (hg : s.segment? id = some g) : g.wf = true :=
  (Memory.wf_iff _).1 h _ _ (State.segment?_eq_some.1 hg)

/-- What a slot update leaves at every id. -/
theorem State.slots_setSlot_getElem? (s : State) (id : Word) (sl : Slot) (k : Nat) :
    (s.setSlot id sl).slots[k]? =
      if k = id.toNat ∧ id.toNat < s.slots.length then some sl else s.slots[k]? := by
  rw [State.setSlot_slots, List.getElem?_set]
  by_cases h : id.toNat = k
  · subst h
    by_cases hl : id.toNat < s.slots.length
    · simp [hl]
    · simp [hl]
  · have : ¬ k = id.toNat := fun e => h e.symm
    simp [h, this]

theorem State.segment?_setSlot_other (s : State) {id q : Word} (sl : Slot) (h : q ≠ id) :
    (s.setSlot id sl).segment? q = s.segment? q := by
  have hn : ¬ q.toNat = id.toNat := fun e => h (BitVec.eq_of_toNat_eq e)
  unfold State.segment?
  rw [State.slots_setSlot_getElem?]
  simp [hn]

theorem State.segment?_setSlot_mapped (s : State) {id : Word} (g : Segment) (h : id.toNat < s.slots.length) :
    (s.setSlot id (.mapped g)).segment? id = some g := by
  unfold State.segment?
  rw [State.slots_setSlot_getElem?]
  simp [h]

theorem State.segment?_setSlot_unmapped (s : State) (id : Word) :
    (s.setSlot id .unmapped).segment? id = none := by
  unfold State.segment?
  rw [State.slots_setSlot_getElem?]
  by_cases h : id.toNat < s.slots.length
  · simp [h]
  · simp [h]

theorem State.lt_of_segment? {s : State} {id : Word} {g : Segment} (h : s.segment? id = some g) :
    id.toNat < s.slots.length := by
  have h' := State.segment?_eq_some.1 h
  exact (List.getElem?_eq_some_iff.1 h').1

/-! ### One lemma per operation: everything it can do -/

theorem lookup_eq_ok {s : State} {id : Word} {g : Segment} : lookup s id = .ok g ↔ s.segment? id = some g := by
  unfold lookup
  cases h : s.segment? id <;> simp

theorem lookup_eq_error {s : State} {id : Word} {f : Raised} :
    lookup s id = .error f ↔ s.segment? id = none ∧ f = .segmentFault (.unmappedSegment id) := by
  unfold lookup
  cases h : s.segment? id <;> simp [eq_comm]

theorem memRead_eq_ok {s : State} {id o v : Word} :
    memRead s id o = .ok v ↔ ∃ g, s.segment? id = some g ∧ o < g.len ∧ v = g.get o := by
  unfold memRead
  rw [bind_eq_ok]
  constructor
  · rintro ⟨g, hg, h⟩
    split at h
    · rename_i ho; cases h; exact ⟨g, lookup_eq_ok.1 hg, ho, rfl⟩
    · cases h
  · rintro ⟨g, hg, ho, rfl⟩
    exact ⟨g, lookup_eq_ok.2 hg, by simp [ho]⟩

theorem memRead_eq_error {s : State} {id o : Word} {f : Raised} :
    memRead s id o = .error f ↔
      (s.segment? id = none ∧ f = .segmentFault (.unmappedSegment id)) ∨
      ∃ g, s.segment? id = some g ∧ g.len ≤ o ∧ f = .segmentFault (.offsetOutOfRange id o) := by
  unfold memRead
  rw [bind_eq_error]
  constructor
  · rintro (h | ⟨g, hg, h⟩)
    · exact .inl (lookup_eq_error.1 h)
    · split at h
      · cases h
      · rename_i ho; cases h; exact .inr ⟨g, lookup_eq_ok.1 hg, BitVec.not_lt.1 ho, rfl⟩
  · rintro (h | ⟨g, hg, ho, rfl⟩)
    · exact .inl (lookup_eq_error.2 h)
    · exact .inr ⟨g, lookup_eq_ok.2 hg, by simp [BitVec.not_lt.2 ho]⟩

theorem memWrite_eq_ok {s t : State} {id o v : Word} :
    memWrite s id o v = .ok t ↔
      ∃ g, s.segment? id = some g ∧ o < g.len ∧ t = s.setSlot id (.mapped (g.set o v)) := by
  unfold memWrite
  rw [bind_eq_ok]
  constructor
  · rintro ⟨g, hg, h⟩
    split at h
    · rename_i ho; cases h; exact ⟨g, lookup_eq_ok.1 hg, ho, rfl⟩
    · cases h
  · rintro ⟨g, hg, ho, rfl⟩
    exact ⟨g, lookup_eq_ok.2 hg, by simp [ho]⟩

theorem memWrite_eq_error {s : State} {id o v : Word} {f : Raised} :
    memWrite s id o v = .error f ↔
      (s.segment? id = none ∧ f = .segmentFault (.unmappedSegment id)) ∨
      ∃ g, s.segment? id = some g ∧ g.len ≤ o ∧ f = .segmentFault (.offsetOutOfRange id o) := by
  unfold memWrite
  rw [bind_eq_error]
  constructor
  · rintro (h | ⟨g, hg, h⟩)
    · exact .inl (lookup_eq_error.1 h)
    · split at h
      · cases h
      · rename_i ho; cases h; exact .inr ⟨g, lookup_eq_ok.1 hg, BitVec.not_lt.1 ho, rfl⟩
  · rintro (h | ⟨g, hg, ho, rfl⟩)
    · exact .inl (lookup_eq_error.2 h)
    · exact .inr ⟨g, lookup_eq_ok.2 hg, by simp [BitVec.not_lt.2 ho]⟩

theorem allocate_eq_ok {can : Nat → Nat → Bool} {n id : Word} {s t : State} :
    allocate can n s = .ok (id, t) ↔
      can s.liveWords n.toNat = true ∧
        ((∃ rest, s.free = id :: rest ∧ t = (s.setSlot id (.mapped (.zeros n))).setFree rest) ∨
         (s.free = [] ∧ s.slotCount ≠ 2 ^ 32 ∧ id = BitVec.ofNat 32 s.slotCount ∧
            t = s.addSlot (.mapped (.zeros n)))) := by
  unfold allocate
  cases hc : can s.liveWords n.toNat with
  | false => simp
  | true =>
    rw [if_neg (by simp)]
    cases hf : s.free with
    | nil =>
      by_cases hn : s.slotCount = 2 ^ 32
      · simp only [hn, if_true]; simp
      · simp only [hn, if_false, Except.ok.injEq, Prod.mk.injEq]
        constructor
        · rintro ⟨rfl, rfl⟩; exact ⟨trivial, .inr ⟨trivial, hn, rfl, rfl⟩⟩
        · rintro ⟨-, ⟨r, hr, -⟩ | ⟨-, -, rfl, rfl⟩⟩
          · cases hr
          · exact ⟨rfl, rfl⟩
    | cons i rest =>
      simp only [Except.ok.injEq, Prod.mk.injEq]
      constructor
      · rintro ⟨rfl, rfl⟩; exact ⟨trivial, .inl ⟨rest, rfl, rfl⟩⟩
      · rintro ⟨-, ⟨r, hr, rfl⟩ | ⟨h, -⟩⟩
        · cases hr; exact ⟨rfl, rfl⟩
        · cases h

theorem allocate_eq_error {can : Nat → Nat → Bool} {n : Word} {s : State} {f : Raised} :
    allocate can n s = .error f ↔
      f = .allocationFailure n.toNat ∧
        (can s.liveWords n.toNat = false ∨ (s.free = [] ∧ s.slotCount = 2 ^ 32)) := by
  unfold allocate
  cases hc : can s.liveWords n.toNat with
  | false => simp [eq_comm]
  | true =>
    rw [if_neg (by simp)]
    cases hf : s.free with
    | nil =>
      by_cases hn : s.slotCount = 2 ^ 32
      · simp only [hn, if_true]; simp [eq_comm]
      · simp only [hn, if_false]; simp
    | cons i rest => simp

theorem release_eq_ok {id : Word} {s t : State} :
    release id s = .ok t ↔
      id ≠ 0 ∧ (∃ g, s.segment? id = some g) ∧ t = (s.setSlot id .unmapped).setFree (id :: s.free) := by
  unfold release
  by_cases h : id = 0
  · rw [if_pos h]
    constructor
    · intro e; cases e
    · intro e; exact absurd h e.1
  · rw [if_neg h]
    cases hs : s.segment? id with
    | none => simp
    | some g =>
      simp only [Except.ok.injEq]
      exact ⟨fun e => ⟨h, ⟨g, rfl⟩, e.symm⟩, fun e => e.2.2.symm⟩

theorem release_eq_error {id : Word} {s : State} {f : Raised} :
    release id s = .error f ↔
      (id = 0 ∧ f = .segmentFault (.unmapSegmentZero id)) ∨
      (id ≠ 0 ∧ s.segment? id = none ∧ f = .segmentFault (.doubleUnmap id)) := by
  unfold release
  by_cases h : id = 0
  · rw [if_pos h]
    simp only [Except.error.injEq]
    exact ⟨fun e => .inl ⟨h, e.symm⟩, fun e => by rcases e with e | e; exacts [e.2.symm, absurd h e.1]⟩
  · rw [if_neg h]
    cases hs : s.segment? id with
    | none =>
      simp only [Except.error.injEq]
      exact ⟨fun e => .inr ⟨h, trivial, e.symm⟩, fun e => by rcases e with e | e; exacts [absurd e.1 h, e.2.2.symm]⟩
    | some g =>
      constructor
      · intro e; cases e
      · rintro (e | e)
        · exact absurd e.1 h
        · cases e.2.1

theorem replaceProgram_eq_ok {can : Nat → Nat → Bool} {id : Word} {s t : State} :
    replaceProgram can id s = .ok t ↔
      (id = 0 ∧ t = s) ∨
      (id ≠ 0 ∧ ∃ g, s.segment? id = some g ∧
        can (s.liveWords - s.programLength.toNat) g.len.toNat = true ∧ t = s.setSlot 0 (.mapped g)) := by
  unfold replaceProgram
  by_cases h : id = 0
  · rw [if_pos h]
    simp only [Except.ok.injEq]
    exact ⟨fun e => .inl ⟨h, e.symm⟩, fun e => by rcases e with e | e; exacts [e.2.symm, absurd h e.1]⟩
  · rw [if_neg h, bind_eq_ok]
    constructor
    · rintro ⟨g, hg, hr⟩
      split at hr
      · cases hr
      · rename_i hc; cases hr
        exact .inr ⟨h, g, lookup_eq_ok.1 hg, by simpa using hc, rfl⟩
    · rintro (⟨h0, -⟩ | ⟨-, g, hg, hc, rfl⟩)
      · exact absurd h0 h
      · exact ⟨g, lookup_eq_ok.2 hg, by simp [hc]⟩

theorem replaceProgram_eq_error {can : Nat → Nat → Bool} {id : Word} {s : State} {f : Raised} :
    replaceProgram can id s = .error f ↔
      id ≠ 0 ∧ ((s.segment? id = none ∧ f = .segmentFault (.unmappedSegment id)) ∨
        ∃ g, s.segment? id = some g ∧
          can (s.liveWords - s.programLength.toNat) g.len.toNat = false ∧
          f = .allocationFailure g.len.toNat) := by
  unfold replaceProgram
  by_cases h : id = 0
  · simp [h]
  · rw [if_neg h, bind_eq_error]
    constructor
    · rintro (he | ⟨g, hg, hr⟩)
      · exact ⟨h, .inl (lookup_eq_error.1 he)⟩
      · split at hr
        · rename_i hc; cases hr
          exact ⟨h, .inr ⟨g, lookup_eq_ok.1 hg, hc, rfl⟩⟩
        · cases hr
    · rintro ⟨-, he | ⟨g, hg, hc, rfl⟩⟩
      · exact .inl (lookup_eq_error.2 he)
      · exact .inr ⟨g, lookup_eq_ok.2 hg, by simp [hc]⟩

/-! ### Every store operation keeps the store's invariants -/

theorem State.StoreInv.of_eq {s t : State} (h : s.StoreInv) (hs : t.slots = s.slots) (hf : t.free = s.free) :
    t.StoreInv where
  program := by rw [hs]; exact h.program
  bounded := by rw [hs]; exact h.bounded
  nodup := by rw [hf]; exact h.nodup
  freeUnmapped := by rw [hs, hf]; exact h.freeUnmapped
  unmappedFree := by rw [hs, hf]; exact h.unmappedFree
  memory := by rw [hs]; exact h.memory

theorem State.StoreInv.programSegment {s : State} (h : s.StoreInv) : ∃ g, s.segment? 0 = some g := by
  obtain ⟨g, hg⟩ := h.program
  exact ⟨g, State.segment?_eq_some.2 hg⟩

theorem State.StoreInv.zero_not_free {s : State} (h : s.StoreInv) : (0 : Word) ∉ s.free := by
  intro h0
  obtain ⟨g, hg⟩ := h.program
  have := h.freeUnmapped 0 h0
  simp [hg] at this

/-- A mapped slot may be given other contents: nothing else of the invariants looks at them. -/
theorem State.StoreInv.setMapped {s : State} (h : s.StoreInv) {id : Word} {g g' : Segment}
    (hg : s.segment? id = some g) (hw : g'.wf = true) : (s.setSlot id (.mapped g')).StoreInv := by
  have hlt := State.lt_of_segment? hg
  have hid := State.segment?_eq_some.1 hg
  refine ⟨?_, ?_, h.nodup, ?_, ?_, ?_⟩
  · obtain ⟨p, hp⟩ := h.program
    rw [State.slots_setSlot_getElem?]
    by_cases hc : 0 = id.toNat ∧ id.toNat < s.slots.length
    · exact ⟨g', by rw [if_pos hc]⟩
    · exact ⟨p, by rw [if_neg hc, hp]⟩
  · simpa using h.bounded
  · intro i hi
    rw [State.slots_setSlot_getElem?]
    have hu := h.freeUnmapped i hi
    have : i.toNat ≠ id.toNat := fun e => by rw [e, hid] at hu; cases hu
    simpa [this] using hu
  · intro i hi
    rw [State.slots_setSlot_getElem?] at hi
    split at hi
    · cases hi
    · exact h.unmappedFree i hi
  · rw [Memory.wf_iff]
    intro k q hk
    rw [State.slots_setSlot_getElem?] at hk
    split at hk
    · cases hk; exact hw
    · exact (Memory.wf_iff _).1 h.memory k q hk

theorem memWrite_keeps {s t : State} {id o v : Word} (h : s.StoreInv) (ht : memWrite s id o v = .ok t) :
    t.StoreInv := by
  obtain ⟨g, hg, ho, rfl⟩ := memWrite_eq_ok.1 ht
  exact h.setMapped hg (Segment.set_wf (State.segment?_wf h.memory hg) ho v)

theorem allocate_keeps {can : Nat → Nat → Bool} {n id : Word} {s t : State} (h : s.StoreInv)
    (ht : allocate can n s = .ok (id, t)) : t.StoreInv := by
  obtain ⟨-, ⟨rest, hf, rfl⟩ | ⟨hf, hn, rfl, rfl⟩⟩ := allocate_eq_ok.1 ht
  · -- a released id is mapped again
    have hu := h.freeUnmapped id (by simp [hf])
    have hnd := h.nodup
    rw [hf, List.nodup_cons] at hnd
    refine ⟨?_, ?_, hnd.2, ?_, ?_, ?_⟩
    · obtain ⟨p, hp⟩ := h.program
      have : ¬ 0 = id.toNat := fun e => by rw [← e, hp] at hu; cases hu
      refine ⟨p, ?_⟩
      show (s.setSlot id (.mapped (.zeros n))).slots[0]? = _
      rw [State.slots_setSlot_getElem?, if_neg (fun e => this e.1), hp]
    · simpa using h.bounded
    · intro i hi
      have hi' : i ≠ id := fun e => hnd.1 (e ▸ hi)
      have : i.toNat ≠ id.toNat := fun e => hi' (BitVec.eq_of_toNat_eq e)
      have hu' := h.freeUnmapped i (by rw [hf]; exact List.mem_cons_of_mem _ hi)
      show (s.setSlot id (.mapped (.zeros n))).slots[i.toNat]? = _
      rw [State.slots_setSlot_getElem?, if_neg (fun e => this e.1), hu']
    · intro i hi
      have hi' : (s.setSlot id (.mapped (.zeros n))).slots[i.toNat]? = some .unmapped := hi
      rw [State.slots_setSlot_getElem?] at hi'
      split at hi'
      · cases hi'
      · rename_i hc
        have hm := h.unmappedFree i hi'
        rw [hf] at hm
        rcases List.mem_cons.1 hm with rfl | hm
        · exact absurd ⟨rfl, (List.getElem?_eq_some_iff.1 hu).1⟩ hc
        · exact hm
    · rw [Memory.wf_iff]
      intro k q hk
      have hk' : (s.setSlot id (.mapped (.zeros n))).slots[k]? = some (.mapped q) := hk
      rw [State.slots_setSlot_getElem?] at hk'
      split at hk'
      · cases hk'; exact Segment.zeros_wf n
      · exact (Memory.wf_iff _).1 h.memory k q hk'
  · -- a new slot is appended
    have hget : ∀ (k : Nat) (sl : Slot), (s.slots ++ [Slot.mapped (.zeros n)])[k]? = some sl →
        s.slots[k]? = some sl ∨ sl = .mapped (.zeros n) := by
      intro k sl hk
      rw [List.getElem?_append] at hk
      split at hk
      · exact .inl hk
      · right
        have := List.mem_of_getElem? hk
        simpa using this
    have hold : ∀ (k : Nat) (sl : Slot), s.slots[k]? = some sl → (s.slots ++ [Slot.mapped (.zeros n)])[k]? = some sl := by
      intro k sl hk
      rw [List.getElem?_append_left (List.getElem?_eq_some_iff.1 hk).1, hk]
    refine ⟨?_, ?_, h.nodup, ?_, ?_, ?_⟩
    · obtain ⟨p, hp⟩ := h.program
      exact ⟨p, hold 0 _ hp⟩
    · have hb := h.bounded
      have hn' : s.slots.length ≠ 2 ^ 32 := hn
      rw [State.addSlot_slots, List.length_append, List.length_singleton]
      omega
    · intro i hi
      exact hold _ _ (h.freeUnmapped i hi)
    · intro i hi
      rcases hget _ _ hi with hi | hi
      · exact h.unmappedFree i hi
      · cases hi
    · rw [Memory.wf_iff]
      intro k q hk
      rcases hget _ _ hk with hk | hk
      · exact (Memory.wf_iff _).1 h.memory k q hk
      · cases hk; exact Segment.zeros_wf n

theorem release_keeps {id : Word} {s t : State} (h : s.StoreInv) (ht : release id s = .ok t) : t.StoreInv := by
  obtain ⟨h0, ⟨g, hg⟩, rfl⟩ := release_eq_ok.1 ht
  have hid := State.segment?_eq_some.1 hg
  have hlt := State.lt_of_segment? hg
  have hnf : id ∉ s.free := fun hm => by rw [h.freeUnmapped id hm] at hid; cases hid
  have hz : ¬ 0 = id.toNat := fun e => h0 (BitVec.eq_of_toNat_eq (by simpa using e.symm))
  refine ⟨?_, ?_, List.nodup_cons.2 ⟨hnf, h.nodup⟩, ?_, ?_, ?_⟩
  · obtain ⟨p, hp⟩ := h.program
    refine ⟨p, ?_⟩
    show (s.setSlot id .unmapped).slots[0]? = _
    rw [State.slots_setSlot_getElem?, if_neg (fun e => hz e.1), hp]
  · simpa using h.bounded
  · intro i hi
    show (s.setSlot id .unmapped).slots[i.toNat]? = some .unmapped
    rw [State.slots_setSlot_getElem?]
    split
    · rfl
    · rename_i hc
      rcases List.mem_cons.1 hi with rfl | hi
      · exact absurd ⟨rfl, hlt⟩ hc
      · exact h.freeUnmapped i hi
  · intro i hi
    have hi' : (s.setSlot id .unmapped).slots[i.toNat]? = some .unmapped := hi
    rw [State.slots_setSlot_getElem?] at hi'
    split at hi'
    · rename_i hc
      rw [BitVec.eq_of_toNat_eq hc.1]
      exact List.mem_cons_self
    · exact List.mem_cons_of_mem _ (h.unmappedFree i hi')
  · rw [Memory.wf_iff]
    intro k q hk
    have hk' : (s.setSlot id .unmapped).slots[k]? = some (.mapped q) := hk
    rw [State.slots_setSlot_getElem?] at hk'
    split at hk'
    · cases hk'
    · exact (Memory.wf_iff _).1 h.memory k q hk'

theorem replaceProgram_keeps {can : Nat → Nat → Bool} {id : Word} {s t : State} (h : s.StoreInv)
    (ht : replaceProgram can id s = .ok t) : t.StoreInv := by
  rcases replaceProgram_eq_ok.1 ht with ⟨-, rfl⟩ | ⟨-, g, hg, -, rfl⟩
  · exact h
  · obtain ⟨p, hp⟩ := h.programSegment
    exact h.setMapped hp (State.segment?_wf h.memory hg)

end Sys2Proof.Machine
end

