-- ==== Sys2Proof/Laws/Exec.lean ====
section
/-! SUPPORT. The instructions' meanings: `exec` always answers a next state, and one inversion lemma that says
everything it can be (`exec_next`). Frames and whole-machine rules are case splits over it. -/

namespace Sys2Proof.Machine

open Sys2Proof

/-- What an instruction that raises no fault does (40_register_ops.md to 43_io.md). -/
def Effect : Instr → State → State → Prop
  | .cmov a b c, s, t => ∃ ra rb rc : Fin 8, a = ra ∧ b = rb ∧ c = rc ∧
      ((s.reg rc = 0 ∧ t = s) ∨ (s.reg rc ≠ 0 ∧ t = s.setReg ra (s.reg rb)))
  | .sload a b c, s, t => ∃ ra rb rc : Fin 8, a = ra ∧ b = rb ∧ c = rc ∧
      ∃ v, memRead s (s.reg rb) (s.reg rc) = .ok v ∧ t = s.setReg ra v
  | .sstore a b c, s, t => ∃ ra rb rc : Fin 8, a = ra ∧ b = rb ∧ c = rc ∧
      memWrite s (s.reg ra) (s.reg rb) (s.reg rc) = .ok t
  | .add a b c, s, t => ∃ ra rb rc : Fin 8, a = ra ∧ b = rb ∧ c = rc ∧
      t = s.setReg ra (addResult (s.reg rb) (s.reg rc))
  | .mul a b c, s, t => ∃ ra rb rc : Fin 8, a = ra ∧ b = rb ∧ c = rc ∧
      t = s.setReg ra (mulResult (s.reg rb) (s.reg rc))
  | .div a b c, s, t => ∃ ra rb rc : Fin 8, a = ra ∧ b = rb ∧ c = rc ∧ s.reg rc ≠ 0 ∧
      t = s.setReg ra (divResult (s.reg rb) (s.reg rc))
  | .nand a b c, s, t => ∃ ra rb rc : Fin 8, a = ra ∧ b = rb ∧ c = rc ∧
      t = s.setReg ra (nandResult (s.reg rb) (s.reg rc))
  | .halt, s, t => t = s.setPc s.programLength
  | .map b c, s, t => ∃ rb rc : Fin 8, b = rb ∧ c = rc ∧
      ∃ id u, allocate Config.canAllocate (s.reg rc) s = .ok (id, u) ∧ t = u.setReg rb id
  | .unmap c, s, t => ∃ rc : Fin 8, c = rc ∧ release (s.reg rc) s = .ok t
  | .out c, s, t => ∃ rc : Fin 8, c = rc ∧ s.reg rc ≤ 255#32 ∧ t = s.consoleWrite (outputByte (s.reg rc))
  | .inp c, s, t => ∃ rc : Fin 8, c = rc ∧
      ((∃ v, s.consoleReply = .byte v ∧ t = s.polled.setReg rc (inputValue v)) ∨
       (s.consoleReply = .endOfStream ∧ t = s.polled.setReg rc endOfStreamValue) ∨
       (s.consoleReply = .noAnswer ∧ t = s.polled.wait rc))
  | .loadp b c, s, t => ∃ rb rc : Fin 8, b = rb ∧ c = rc ∧
      ∃ u, (if s.reg rb = 0 then .ok s else replaceProgram Config.canAllocate (s.reg rb) s) = .ok u ∧
        t = u.setPc (s.reg rc)
  | .loadi a literal, s, t => ∃ ra : Fin 8, a = ra ∧ t = s.setReg ra (literalValue literal)

/-- The faults an instruction can raise: a bad register index, or one of its own (60_exceptions.md R127). -/
def CanRaise (i : Instr) (f : Raised) : Prop :=
  (∃ k ∈ i.registers, 7 < k ∧ f = .invalidRegister k) ∨ mayRaise i f = true

/-- `exec` always answers a next state: an effect, or a fault entered. -/
theorem exec_total (i : Instr) (s : State) : ∃ t, exec i s = .next t := by
  cases i <;> exact ⟨_, rfl⟩

theorem memRead_error_mayRaise {s : State} {id o : Word} {f : Raised} (h : memRead s id o = .error f) (a b c : Nat) :
    mayRaise (.sload a b c) f = true := by
  rcases memRead_eq_error.1 h with ⟨-, rfl⟩ | ⟨_, -, -, rfl⟩ <;> rfl

theorem memWrite_error_mayRaise {s : State} {id o v : Word} {f : Raised} (h : memWrite s id o v = .error f)
    (a b c : Nat) : mayRaise (.sstore a b c) f = true := by
  rcases memWrite_eq_error.1 h with ⟨-, rfl⟩ | ⟨_, -, -, rfl⟩ <;> rfl

/-- Everything one instruction can do. -/
theorem exec_next {i : Instr} {s t : State} (h : exec i s = .next t) :
    Effect i s t ∨ ∃ f, CanRaise i f ∧ t = s.raiseFault f := by
  have bad : ∀ {k : Nat} {f : Raised}, regIx k = .error f → k ∈ i.registers → CanRaise i f := by
    intro k f hk hm
    obtain ⟨hlt, rfl⟩ := regIx_eq_error.1 hk
    exact .inl ⟨k, hm, hlt, rfl⟩
  cases i with
  | halt => exact .inl (by cases h; rfl)
  | loadi a literal =>
    rcases attempt_cases s h with hr | ⟨f, hr, rfl⟩
    · obtain ⟨ra, ha, hr⟩ := bind_eq_ok.1 hr
      exact .inl ⟨ra, regIx_eq_ok.1 ha, by cases hr; rfl⟩
    · rcases bind_eq_error.1 hr with ha | ⟨ra, ha, hr⟩
      · exact .inr ⟨f, bad ha (by simp [Instr.registers]), rfl⟩
      · cases hr
  | unmap c =>
    rcases attempt_cases s h with hr | ⟨f, hr, rfl⟩
    · obtain ⟨rc, hc, hr⟩ := bind_eq_ok.1 hr
      exact .inl ⟨rc, regIx_eq_ok.1 hc, hr⟩
    · rcases bind_eq_error.1 hr with hc | ⟨rc, hc, hr⟩
      · exact .inr ⟨f, bad hc (by simp [Instr.registers]), rfl⟩
      · refine .inr ⟨f, .inr ?_, rfl⟩
        rcases release_eq_error.1 hr with ⟨-, rfl⟩ | ⟨-, -, rfl⟩ <;> rfl
  | out c =>
    rcases attempt_cases s h with hr | ⟨f, hr, rfl⟩
    · obtain ⟨rc, hc, hr⟩ := bind_eq_ok.1 hr
      split at hr
      · cases hr
      · rename_i hle
        cases hr
        exact .inl ⟨rc, regIx_eq_ok.1 hc, BitVec.not_lt.1 hle, rfl⟩
    · rcases bind_eq_error.1 hr with hc | ⟨rc, hc, hr⟩
      · exact .inr ⟨f, bad hc (by simp [Instr.registers]), rfl⟩
      · split at hr
        · cases hr; exact .inr ⟨_, .inr rfl, rfl⟩
        · cases hr
  | inp c =>
    rcases attempt_cases s h with hr | ⟨f, hr, rfl⟩
    · obtain ⟨rc, hc, hr⟩ := bind_eq_ok.1 hr
      refine .inl ⟨rc, regIx_eq_ok.1 hc, ?_⟩
      split at hr
      · rename_i v hv; cases hr; exact .inl ⟨v, hv, rfl⟩
      · rename_i hv; cases hr; exact .inr (.inl ⟨hv, rfl⟩)
      · rename_i hv; cases hr; exact .inr (.inr ⟨hv, rfl⟩)
    · rcases bind_eq_error.1 hr with hc | ⟨rc, hc, hr⟩
      · exact .inr ⟨f, bad hc (by simp [Instr.registers]), rfl⟩
      · split at hr <;> cases hr
  | map b c =>
    rcases attempt_cases s h with hr | ⟨f, hr, rfl⟩
    · obtain ⟨rb, hb, hr⟩ := bind_eq_ok.1 hr
      obtain ⟨rc, hc, hr⟩ := bind_eq_ok.1 hr
      obtain ⟨⟨id, u⟩, hu, hr⟩ := bind_eq_ok.1 hr
      exact .inl ⟨rb, rc, regIx_eq_ok.1 hb, regIx_eq_ok.1 hc, id, u, hu, by cases hr; rfl⟩
    · rcases bind_eq_error.1 hr with hb | ⟨rb, hb, hr⟩
      · exact .inr ⟨f, bad hb (by simp [Instr.registers]), rfl⟩
      · rcases bind_eq_error.1 hr with hc | ⟨rc, hc, hr⟩
        · exact .inr ⟨f, bad hc (by simp [Instr.registers]), rfl⟩
        · rcases bind_eq_error.1 hr with hu | ⟨⟨id, u⟩, hu, hr⟩
          · obtain ⟨rfl, -⟩ := allocate_eq_error.1 hu
            exact .inr ⟨_, .inr rfl, rfl⟩
          · cases hr
  | loadp b c =>
    rcases attempt_cases s h with hr | ⟨f, hr, rfl⟩
    · obtain ⟨rb, hb, hr⟩ := bind_eq_ok.1 hr
      obtain ⟨rc, hc, hr⟩ := bind_eq_ok.1 hr
      obtain ⟨u, hu, hr⟩ := bind_eq_ok.1 hr
      exact .inl ⟨rb, rc, regIx_eq_ok.1 hb, regIx_eq_ok.1 hc, u, hu, by cases hr; rfl⟩
    · rcases bind_eq_error.1 hr with hb | ⟨rb, hb, hr⟩
      · exact .inr ⟨f, bad hb (by simp [Instr.registers]), rfl⟩
      · rcases bind_eq_error.1 hr with hc | ⟨rc, hc, hr⟩
        · exact .inr ⟨f, bad hc (by simp [Instr.registers]), rfl⟩
        · rcases bind_eq_error.1 hr with hu | ⟨u, hu, hr⟩
          · split at hu
            · cases hu
            · obtain ⟨-, ⟨-, rfl⟩ | ⟨g, -, -, rfl⟩⟩ := replaceProgram_eq_error.1 hu <;>
                exact .inr ⟨_, .inr rfl, rfl⟩
          · cases hr
  | cmov a b c | sload a b c | sstore a b c | add a b c | mul a b c | div a b c | nand a b c =>
    rcases attempt_cases s h with hr | ⟨f, hr, rfl⟩
    · obtain ⟨ra, ha, hr⟩ := bind_eq_ok.1 hr
      obtain ⟨rb, hb, hr⟩ := bind_eq_ok.1 hr
      obtain ⟨rc, hc, hr⟩ := bind_eq_ok.1 hr
      refine .inl ⟨ra, rb, rc, regIx_eq_ok.1 ha, regIx_eq_ok.1 hb, regIx_eq_ok.1 hc, ?_⟩
      first
        | (obtain ⟨v, hv, hr⟩ := bind_eq_ok.1 hr; cases hr; exact ⟨v, hv, rfl⟩)
        | exact hr
        | (cases hr; rfl)
        | (split at hr
           · cases hr
           · cases hr; exact ⟨by assumption, rfl⟩)
        | (split at hr
           · cases hr; exact .inl ⟨by assumption, rfl⟩
           · cases hr; exact .inr ⟨by assumption, rfl⟩)
    · rcases bind_eq_error.1 hr with ha | ⟨ra, ha, hr⟩
      · exact .inr ⟨f, bad ha (by simp [Instr.registers]), rfl⟩
      rcases bind_eq_error.1 hr with hb | ⟨rb, hb, hr⟩
      · exact .inr ⟨f, bad hb (by simp [Instr.registers]), rfl⟩
      rcases bind_eq_error.1 hr with hc | ⟨rc, hc, hr⟩
      · exact .inr ⟨f, bad hc (by simp [Instr.registers]), rfl⟩
      first
        | exact .inr ⟨f, .inr (memWrite_error_mayRaise hr _ _ _), rfl⟩
        | cases hr
        | (rcases bind_eq_error.1 hr with hv | ⟨v, hv, hr⟩
           · exact .inr ⟨f, .inr (memRead_error_mayRaise hv _ _ _), rfl⟩
           · cases hr)
        | (split at hr
           · cases hr; exact .inr ⟨_, .inr rfl, rfl⟩
           · cases hr)
        | (split at hr <;> cases hr)

/-- No instruction's effect changes the run status, the fault record or the instruction in progress. -/
theorem Effect.sameControl {i : Instr} {s t : State} (h : Effect i s t) : SameControl s t := by
  cases i with
  | cmov a b c => obtain ⟨_, _, _, -, -, -, ⟨-, rfl⟩ | ⟨-, rfl⟩⟩ := h <;> exact ⟨rfl, rfl, rfl⟩
  | sload a b c => obtain ⟨_, _, _, -, -, -, _, -, rfl⟩ := h; exact ⟨rfl, rfl, rfl⟩
  | sstore a b c =>
    obtain ⟨_, _, _, -, -, -, h⟩ := h
    obtain ⟨_, -, -, rfl⟩ := memWrite_eq_ok.1 h
    exact ⟨rfl, rfl, rfl⟩
  | add a b c | mul a b c | nand a b c => obtain ⟨_, _, _, -, -, -, rfl⟩ := h; exact ⟨rfl, rfl, rfl⟩
  | div a b c => obtain ⟨_, _, _, -, -, -, -, rfl⟩ := h; exact ⟨rfl, rfl, rfl⟩
  | halt => cases h; exact ⟨rfl, rfl, rfl⟩
  | map b c =>
    obtain ⟨_, _, -, -, id, u, hu, rfl⟩ := h
    obtain ⟨-, ⟨_, -, rfl⟩ | ⟨-, -, -, rfl⟩⟩ := allocate_eq_ok.1 hu <;> exact ⟨rfl, rfl, rfl⟩
  | unmap c =>
    obtain ⟨_, -, h⟩ := h
    obtain ⟨-, -, rfl⟩ := release_eq_ok.1 h
    exact ⟨rfl, rfl, rfl⟩
  | out c => obtain ⟨_, -, -, rfl⟩ := h; exact ⟨rfl, rfl, rfl⟩
  | inp c => obtain ⟨_, -, ⟨_, -, rfl⟩ | ⟨-, rfl⟩ | ⟨-, rfl⟩⟩ := h <;> exact ⟨rfl, rfl, rfl⟩
  | loadp b c =>
    obtain ⟨_, _, -, -, u, hu, rfl⟩ := h
    split at hu
    · cases hu; exact ⟨rfl, rfl, rfl⟩
    · obtain ⟨-, rfl⟩ | ⟨-, _, -, -, rfl⟩ := replaceProgram_eq_ok.1 hu <;> exact ⟨rfl, rfl, rfl⟩
  | loadi a literal => obtain ⟨_, -, rfl⟩ := h; exact ⟨rfl, rfl, rfl⟩

/-- Every instruction's effect keeps the store's invariants (10_state.md R30, 41_segment_ops.md R101). -/
theorem Effect.keepsStore {i : Instr} {s t : State} (hs : s.StoreInv) (h : Effect i s t) : t.StoreInv := by
  cases i with
  | cmov a b c =>
    obtain ⟨_, _, _, -, -, -, ⟨-, rfl⟩ | ⟨-, rfl⟩⟩ := h
    · exact hs
    · exact hs.of_eq rfl rfl
  | sload a b c => obtain ⟨_, _, _, -, -, -, _, -, rfl⟩ := h; exact hs.of_eq rfl rfl
  | sstore a b c => obtain ⟨_, _, _, -, -, -, h⟩ := h; exact memWrite_keeps hs h
  | add a b c | mul a b c | nand a b c => obtain ⟨_, _, _, -, -, -, rfl⟩ := h; exact hs.of_eq rfl rfl
  | div a b c => obtain ⟨_, _, _, -, -, -, -, rfl⟩ := h; exact hs.of_eq rfl rfl
  | halt => cases h; exact hs.of_eq rfl rfl
  | map b c =>
    obtain ⟨_, _, -, -, id, u, hu, rfl⟩ := h
    exact (allocate_keeps hs hu).of_eq rfl rfl
  | unmap c => obtain ⟨_, -, h⟩ := h; exact release_keeps hs h
  | out c => obtain ⟨_, -, -, rfl⟩ := h; exact hs.of_eq rfl rfl
  | inp c => obtain ⟨_, -, ⟨_, -, rfl⟩ | ⟨-, rfl⟩ | ⟨-, rfl⟩⟩ := h <;> exact hs.of_eq rfl rfl
  | loadp b c =>
    obtain ⟨_, _, -, -, u, hu, rfl⟩ := h
    refine State.StoreInv.of_eq (s := u) ?_ rfl rfl
    split at hu
    · cases hu; exact hs
    · exact replaceProgram_keeps hs hu
  | loadi a literal => obtain ⟨_, -, rfl⟩ := h; exact hs.of_eq rfl rfl

/-- An Input is the only instruction whose effect can begin or end a wait. -/
theorem Effect.sameWaiting {i : Instr} {s t : State} (hi : ∀ c, i ≠ .inp c) (h : Effect i s t) :
    t.waiting = s.waiting := by
  cases i with
  | cmov a b c => obtain ⟨_, _, _, -, -, -, ⟨-, rfl⟩ | ⟨-, rfl⟩⟩ := h <;> rfl
  | sload a b c => obtain ⟨_, _, _, -, -, -, _, -, rfl⟩ := h; rfl
  | sstore a b c =>
    obtain ⟨_, _, _, -, -, -, h⟩ := h
    obtain ⟨_, -, -, rfl⟩ := memWrite_eq_ok.1 h
    rfl
  | add a b c | mul a b c | nand a b c => obtain ⟨_, _, _, -, -, -, rfl⟩ := h; rfl
  | div a b c => obtain ⟨_, _, _, -, -, -, -, rfl⟩ := h; rfl
  | halt => cases h; rfl
  | map b c =>
    obtain ⟨_, _, -, -, id, u, hu, rfl⟩ := h
    obtain ⟨-, ⟨_, -, rfl⟩ | ⟨-, -, -, rfl⟩⟩ := allocate_eq_ok.1 hu <;> rfl
  | unmap c =>
    obtain ⟨_, -, h⟩ := h
    obtain ⟨-, -, rfl⟩ := release_eq_ok.1 h
    rfl
  | out c => obtain ⟨_, -, -, rfl⟩ := h; rfl
  | inp c => exact absurd rfl (hi c)
  | loadp b c =>
    obtain ⟨_, _, -, -, u, hu, rfl⟩ := h
    split at hu
    · cases hu; rfl
    · obtain ⟨-, rfl⟩ | ⟨-, _, -, -, rfl⟩ := replaceProgram_eq_ok.1 hu <;> rfl
  | loadi a literal => obtain ⟨_, -, rfl⟩ := h; rfl

/-! ### A step of a Running block -/

/-- Everything a Running block's step can be: a waiting Input that goes on, a fetch fault, a DecodeError, or the decoded
instruction with the termination check. -/
theorem step_running {s t : State} (hs : s.status = .running) (h : step s = .next t) :
    (∃ c u, s.waiting = some c ∧ exec (.inp c) s = .next u ∧ t = u.finish) ∨
    (∃ f, s.waiting = none ∧ fetch s = .error f ∧ t = s.fetching.raiseFault f) ∨
    (∃ w f, s.waiting = none ∧ fetch s = .ok w ∧ decode w = .error f ∧ t = (s.advance w).raiseFault f) ∨
    (∃ w i u, s.waiting = none ∧ fetch s = .ok w ∧ decode w = .ok i ∧ exec i (s.advance w) = .next u ∧
      t = u.finish) := by
  simp only [step, hs, runStep] at h
  cases hw : s.waiting with
  | some c =>
    simp only [hw, execute] at h
    obtain ⟨u, hu⟩ := exec_total (.inp c) s
    rw [hu] at h
    exact .inl ⟨c, u, rfl, hu, by cases h; rfl⟩
  | none =>
    simp only [hw, runInstruction] at h
    cases hf : fetch s with
    | error f =>
      rw [hf] at h
      exact .inr (.inl ⟨f, rfl, rfl, by cases h; rfl⟩)
    | ok w =>
      rw [hf] at h
      cases hd : decode w with
      | error f =>
        simp only [hd] at h
        exact .inr (.inr (.inl ⟨w, f, rfl, rfl, hd, by cases h; rfl⟩))
      | ok i =>
        simp only [hd, execute] at h
        obtain ⟨u, hu⟩ := exec_total i (s.advance w)
        rw [hu] at h
        exact .inr (.inr (.inr ⟨w, i, u, rfl, rfl, hd, hu, by cases h; rfl⟩))

end Sys2Proof.Machine
end

