-- ==== Sys2Proof/Laws/Loader.lean ====
section
/-! SUPPORT. Image load: everything it can do, and that it keeps the store's invariants. -/

namespace Sys2Proof.Machine

/-- The same words, whatever else of the state differs. -/
theorem memRead_congr {s t : State} {id : Word} (h : t.segment? id = s.segment? id) (o : Word) :
    memRead t id o = memRead s id o := by
  unfold memRead lookup
  rw [h]

/-- `len(0)` where segment 0 is known. -/
theorem State.programLength_eq {s : State} {g : Segment} (h : s.segment? 0 = some g) : s.programLength = g.len := by
  unfold State.programLength
  rw [h]

/-- The default of the trailing-bytes policy (00_scope.md R8). -/
theorem trailingBytesPolicy_default (h : Config.trailingBytesSetting = none) : trailingBytesPolicy = .fault := by
  simp [trailingBytesPolicy, h]

theorem trailingBytesPolicy_set {p : TrailingPolicy} (h : Config.trailingBytesSetting = some p) :
    trailingBytesPolicy = p := by
  simp [trailingBytesPolicy, h]

/-- A byte inserted in an 8-bit field: it always fits. -/
theorem setU_byte (word : Carrier) (b : Byte) (lsb : Nat) (h : lsb + 8 ≤ 64) :
    Codec.setU word 8 lsb (b.zeroExtend 64) = .ok (Codec.setUBody word 8 lsb (b.zeroExtend 64)) := by
  have hb := b.isLt
  have hf : Codec.fitsUBody (b.zeroExtend 64) 8 = true := by simp [Codec.fitsUBody]; omega
  have hd : Codec.inDomain 8 lsb = true := by simp [Codec.inDomain, h]
  simp only [Codec.setU, Codec.guarded, hd, hf, if_true]

/-- Image load assembles one word for every four bytes. -/
theorem assembleWords_length : ∀ {bytes : List Byte} {ws : List Word}, assembleWords bytes = .ok ws →
    ws.length = bytes.length / 4
  | b0 :: b1 :: b2 :: b3 :: rest, ws, h => by
    rw [assembleWords, bind_eq_ok] at h
    obtain ⟨w, -, h⟩ := h
    obtain ⟨vs, hvs, h⟩ := bind_eq_ok.1 h
    cases h
    have := assembleWords_length hvs
    simp only [List.length_cons]
    omega
  | [], _, h => by cases h; rfl
  | [_], _, h => by cases h; simp
  | [_, _], _, h => by cases h; simp
  | [_, _, _], _, h => by cases h; simp

/-- When image load succeeds, and what it leaves. -/
theorem loadImage_eq_ok {policy : TrailingPolicy} {can : Nat → Nat → Bool} {r : ImageAnswer} {s t : State} :
    loadImage policy can r s = .ok t ↔
      ∃ bytes ws, r = .image bytes ∧ ¬(bytes.length % 4 ≠ 0 ∧ policy = .fault) ∧ bytes.length / 4 < 2 ^ 32 ∧
        can 0 (bytes.length / 4) = true ∧ assembleWords bytes = .ok ws ∧
        t = { s.setSlot 0 (.mapped (.ofWords ws)) with status := .running } := by
  cases r with
  | failure =>
    constructor
    · intro h; cases h
    · rintro ⟨_, _, h, -⟩; cases h
  | image bytes =>
    constructor
    · intro h
      simp only [loadImage] at h
      split at h
      · cases h
      · rename_i hp
        split at h
        · cases h
        · rename_i hc
          obtain ⟨ws, hws, h⟩ := bind_eq_ok.1 h
          cases h
          have hc1 : ¬ 2 ^ 32 - 1 < bytes.length / 4 := fun e => hc (.inl e)
          have hc2 : can 0 (bytes.length / 4) = true := by
            cases e : can 0 (bytes.length / 4)
            · exact absurd (.inr e) hc
            · rfl
          exact ⟨bytes, ws, rfl, hp, by omega, hc2, hws, rfl⟩
    · rintro ⟨bytes', ws, hb, hp, hl, hc, hws, rfl⟩
      cases hb
      have hn : ¬(2 ^ 32 - 1 < bytes.length / 4 ∨ can 0 (bytes.length / 4) = false) := by
        rintro (e | e)
        · omega
        · rw [hc] at e; cases e
      simp only [loadImage, if_neg hp, if_neg hn]
      rw [hws, bind_ok]

/-- A successful load keeps the store's invariants (70_reset_and_hazards.md R145). -/
theorem loadImage_keeps {policy : TrailingPolicy} {can : Nat → Nat → Bool} {r : ImageAnswer} {s t : State}
    (hs : s.StoreInv) (h : loadImage policy can r s = .ok t) : t.StoreInv := by
  obtain ⟨bytes, ws, -, -, hl, -, hws, rfl⟩ := loadImage_eq_ok.1 h
  obtain ⟨g, hg⟩ := hs.programSegment
  have hw : (Segment.ofWords ws).wf = true := Segment.ofWords_wf (by rw [assembleWords_length hws]; exact hl)
  exact (hs.setMapped hg hw).of_eq rfl rfl

/-- The step out of Loading is a successful load, or a fault entered. -/
theorem State.load_cases (s : State) :
    loadImage trailingBytesPolicy Config.canAllocate s.imageAnswer s = .ok s.load ∨
      ∃ f, loadImage trailingBytesPolicy Config.canAllocate s.imageAnswer s = .error f ∧
        s.load = s.raiseFault f := by
  unfold State.load
  cases h : loadImage trailingBytesPolicy Config.canAllocate s.imageAnswer s with
  | ok t => exact .inl rfl
  | error f => exact .inr ⟨f, rfl, rfl⟩

end Sys2Proof.Machine
end

