-- ==== Sys2Proof/Laws/PerInstr.lean ====
section
/-! SUPPORT. Statements made for every instruction, one lemma per constructor. The family `EncodeFits`: the encoder of a
well-formed instruction raises nothing (60_exceptions.md R121: the encoder's arguments are in range by construction). -/

namespace Sys2Proof.Laws

/-- The encoder answers a word for a well-formed instruction. -/
def EncodeFits.Statement (i : Instr) : Prop := i.wellFormed = true → ∃ w, encode i = .ok w

theorem EncodeFits.three {op a b c : Nat} (hop : op < 16) (h : ∀ r ∈ [a, b, c], r < 8) :
    ∃ w, encodeS op a b c = .ok w :=
  ⟨_, encodeS_ok hop (h a (by simp)) (h b (by simp)) (h c (by simp))⟩

theorem EncodeFits.cmov (a b c : Nat) : EncodeFits.Statement (.cmov a b c) := fun h =>
  three (by omega) ((Instr.wellFormed_iff _).1 h)

theorem EncodeFits.sload (a b c : Nat) : EncodeFits.Statement (.sload a b c) := fun h =>
  three (by omega) ((Instr.wellFormed_iff _).1 h)

theorem EncodeFits.sstore (a b c : Nat) : EncodeFits.Statement (.sstore a b c) := fun h =>
  three (by omega) ((Instr.wellFormed_iff _).1 h)

theorem EncodeFits.add (a b c : Nat) : EncodeFits.Statement (.add a b c) := fun h =>
  three (by omega) ((Instr.wellFormed_iff _).1 h)

theorem EncodeFits.mul (a b c : Nat) : EncodeFits.Statement (.mul a b c) := fun h =>
  three (by omega) ((Instr.wellFormed_iff _).1 h)

theorem EncodeFits.div (a b c : Nat) : EncodeFits.Statement (.div a b c) := fun h =>
  three (by omega) ((Instr.wellFormed_iff _).1 h)

theorem EncodeFits.nand (a b c : Nat) : EncodeFits.Statement (.nand a b c) := fun h =>
  three (by omega) ((Instr.wellFormed_iff _).1 h)

theorem EncodeFits.halt : EncodeFits.Statement .halt := fun _ =>
  ⟨_, encodeS_ok (by omega) (by omega) (by omega) (by omega)⟩

theorem EncodeFits.map (b c : Nat) : EncodeFits.Statement (.map b c) := fun h =>
  have h := (Instr.wellFormed_iff _).1 h
  ⟨_, encodeS_ok (by omega) (by omega) (h b (by simp [Instr.registers])) (h c (by simp [Instr.registers]))⟩

theorem EncodeFits.unmap (c : Nat) : EncodeFits.Statement (.unmap c) := fun h =>
  have h := (Instr.wellFormed_iff _).1 h
  ⟨_, encodeS_ok (by omega) (by omega) (by omega) (h c (by simp [Instr.registers]))⟩

theorem EncodeFits.out (c : Nat) : EncodeFits.Statement (.out c) := fun h =>
  have h := (Instr.wellFormed_iff _).1 h
  ⟨_, encodeS_ok (by omega) (by omega) (by omega) (h c (by simp [Instr.registers]))⟩

theorem EncodeFits.inp (c : Nat) : EncodeFits.Statement (.inp c) := fun h =>
  have h := (Instr.wellFormed_iff _).1 h
  ⟨_, encodeS_ok (by omega) (by omega) (by omega) (h c (by simp [Instr.registers]))⟩

theorem EncodeFits.loadp (b c : Nat) : EncodeFits.Statement (.loadp b c) := fun h =>
  have h := (Instr.wellFormed_iff _).1 h
  ⟨_, encodeS_ok (by omega) (by omega) (h b (by simp [Instr.registers])) (h c (by simp [Instr.registers]))⟩

theorem EncodeFits.loadi (a : Nat) (literal : BitVec 25) : EncodeFits.Statement (.loadi a literal) := fun h =>
  have h := (Instr.wellFormed_iff _).1 h
  ⟨_, encodeI_ok (h a (by simp [Instr.registers])) literal⟩

end Sys2Proof.Laws
end

