-- ==== Sys2Proof/Tests/Slice0.lean ====
section
/-! SUPPORT. Tests. Expected results come from spec/95_test_vectors.md (the part is named) or from the rule named; none
from a run of the model. The last sections show, for each obligation with hypotheses, values that meet them together. -/

namespace Sys2Proof.Tests

open Sys2Proof Sys2Proof.Machine Sys2Proof.Machine.Codec

/-! ### Helpers -/

/-- Registers set one after another. -/
def withRegs (x : List (Fin 8 × Word)) (s : State) : State := x.foldl (fun s p => s.setReg p.1 p.2) s

/-- The start state of part 2's vectors: Running, `pc = 0`, segment 0 the word and four words of 0, then more slots. -/
def vec (word : Word) (x : List (Fin 8 × Word)) (more : List Slot) : State :=
  withRegs x { State.reset with
    status := .running
    slots := .mapped (.ofWords [word, 0, 0, 0, 0]) :: more }

/-- The state after one step, if the step answers one. -/
def after (s : State) : Option State :=
  match step s with
  | .next t => some t
  | _ => none

/-- The fault record after one step. -/
def faultOf (s : State) : Option FaultRecord := (after s).bind State.fault

/-- `pc` and one register after one step. -/
def pcAnd (r : Fin 8) (s : State) : Option (Word × Word) := (after s).map (fun t => (t.pc, t.reg r))

/-- A check of the store's invariants that `decide` can run. -/
def storeCheck (s : State) : Bool :=
  (s.segment? 0).isSome &&
  decide (s.slots.length ≤ 2 ^ 32) && decide s.free.Nodup &&
  s.free.all (fun id => s.slots[id.toNat]? == some .unmapped) &&
  (List.range s.slots.length).all (fun k => s.slots[k]? != some .unmapped || s.free.contains (BitVec.ofNat 32 k)) &&
  Memory.wf s.slots

theorem storeInv_of_check {s : State} (h : storeCheck s = true) : s.StoreInv := by
  simp only [storeCheck, Bool.and_eq_true, decide_eq_true_eq, List.all_eq_true, beq_iff_eq, List.mem_range] at h
  obtain ⟨⟨⟨⟨⟨h0, hb⟩, hn⟩, hf⟩, hu⟩, hm⟩ := h
  refine ⟨?_, hb, hn, hf, fun id hid => ?_, hm⟩
  · obtain ⟨g, hg⟩ := Option.isSome_iff_exists.1 h0
    exact ⟨g, State.segment?_eq_some.1 hg⟩
  · have hlt := (List.getElem?_eq_some_iff.1 hid).1
    have := hu id.toNat hlt
    rw [hid] at this
    simpa using this

theorem inv_of_check {s : State} (h : storeCheck s = true) (hf : s.status ≠ .faulted) (hr : s.fault = none)
    (hi : s.inFlight = none) (hw : s.waiting = none) (he : s.status = .terminated → s.pc = s.programLength) : s.Inv :=
  ⟨storeInv_of_check h, by simp [hf, hr], fun _ => hi, fun c hc => (by rw [hw] at hc; cases hc), he⟩

/-! ### WellFormed: each register check refuses an index of 8 (30_encoding.md R72) -/

theorem test_wellFormed_refuses_three_registers :
    (Instr.cmov 8 0 0).wellFormed = false ∧ (Instr.cmov 0 8 0).wellFormed = false ∧
    (Instr.cmov 0 0 8).wellFormed = false ∧ (Instr.sload 8 0 0).wellFormed = false ∧
    (Instr.sload 0 8 0).wellFormed = false ∧ (Instr.sload 0 0 8).wellFormed = false ∧
    (Instr.sstore 8 0 0).wellFormed = false ∧ (Instr.sstore 0 8 0).wellFormed = false ∧
    (Instr.sstore 0 0 8).wellFormed = false ∧ (Instr.add 8 0 0).wellFormed = false ∧
    (Instr.add 0 8 0).wellFormed = false ∧ (Instr.add 0 0 8).wellFormed = false ∧
    (Instr.mul 8 0 0).wellFormed = false ∧ (Instr.mul 0 8 0).wellFormed = false ∧
    (Instr.mul 0 0 8).wellFormed = false ∧ (Instr.div 8 0 0).wellFormed = false ∧
    (Instr.div 0 8 0).wellFormed = false ∧ (Instr.div 0 0 8).wellFormed = false ∧
    (Instr.nand 8 0 0).wellFormed = false ∧ (Instr.nand 0 8 0).wellFormed = false ∧
    (Instr.nand 0 0 8).wellFormed = false := by decide

theorem test_wellFormed_refuses_one_or_two_registers :
    (Instr.map 8 0).wellFormed = false ∧ (Instr.map 0 8).wellFormed = false ∧
    (Instr.loadp 8 0).wellFormed = false ∧ (Instr.loadp 0 8).wellFormed = false ∧
    (Instr.unmap 8).wellFormed = false ∧ (Instr.out 8).wellFormed = false ∧ (Instr.inp 8).wellFormed = false ∧
    (Instr.loadi 8 0).wellFormed = false := by decide

theorem test_wellFormed_accepts_seven :
    (Instr.cmov 7 7 7).wellFormed = true ∧ (Instr.map 7 7).wellFormed = true ∧
    (Instr.loadi 7 0x1FFFFFF#25).wellFormed = true ∧ Instr.halt.wellFormed = true := by decide

/-! ### Decode: a word written out from the encoding, for every constructor (30_encoding.md R65 to R74; part 2.2 to 2.6) -/

-- Format S, all three fields: op(4) unread(19) a(3) b(3) c(3)
theorem test_decode_cmov : decode 0b0000_0000000000000000000_001_010_011#32 = .ok (.cmov 1 2 3) := by decide
theorem test_decode_sload : decode 0b0001_0000000000000000000_100_001_010#32 = .ok (.sload 4 1 2) := by decide
theorem test_decode_sstore : decode 0b0010_0000000000000000000_001_010_011#32 = .ok (.sstore 1 2 3) := by decide
theorem test_decode_add : decode 0b0011_1111111111111111111_000_001_010#32 = .ok (.add 0 1 2) := by decide
theorem test_decode_mul : decode 0b0100_0000000000000000000_011_001_010#32 = .ok (.mul 3 1 2) := by decide
theorem test_decode_div : decode 0b0101_0000000000000000000_010_001_000#32 = .ok (.div 2 1 0) := by decide
theorem test_decode_nand : decode 0b0110_0000000000000000000_100_001_010#32 = .ok (.nand 4 1 2) := by decide
-- Format S, fewer fields
theorem test_decode_halt : decode 0x7ABCDEFF#32 = .ok .halt := by decide
theorem test_decode_map : decode 0b1000_0000000000000000000_000_001_101#32 = .ok (.map 1 5) := by decide
theorem test_decode_unmap : decode 0b1001_0000000000000000000_000_000_010#32 = .ok (.unmap 2) := by decide
theorem test_decode_out : decode 0b1010_0000000000000000000_000_000_100#32 = .ok (.out 4) := by decide
theorem test_decode_inp : decode 0b1011_0000000000000000000_000_000_011#32 = .ok (.inp 3) := by decide
theorem test_decode_loadp : decode 0b1100_0000000000000000000_111_010_000#32 = .ok (.loadp 2 0) := by decide
-- Format I: op(4) a(3) literal(25)
theorem test_decode_loadi : decode 0b1101_111_0000000000000000000000001#32 = .ok (.loadi 7 1) := by decide
theorem test_decode_largest_literal : decode 0xDFFFFFFF#32 = .ok (.loadi 7 0x1FFFFFF#25) := by decide

theorem test_decode_illegal :
    decode 0xE0000000#32 = .error (.decodeError 14) ∧ decode 0xF1234567#32 = .error (.decodeError 15) := by decide

/-- Part 2.2's encoder row. -/
theorem test_encode :
    encode (.div 2 1 0) = .ok 0x50000088#32 ∧ encode (.loadi 7 0x1FFFFFF#25) = .ok 0xDFFFFFFF#32 ∧
    encode (.loadp 2 0) = .ok 0xC0000010#32 ∧ encode (.add 0 8 0) = .error (.overflow 8 3) := by decide

theorem test_decodeTableWord :
    decodeTableWord 32 0xB0000003 = some (.inp 3) ∧ decodeTableWord 32 0xE0000000 = none := by decide

/-- Programs 1 to 3 give the assembler text of these words. -/
theorem test_assembly :
    (Instr.loadi 0 65).assembly = "loadi r0, 65" ∧ (Instr.sstore 1 2 3).assembly = "sstore r1, r2, r3" ∧
    Instr.halt.assembly = "halt" := by decide

/-! ### The bit-field codec (part 2.1) -/

theorem test_getU :
    getU 0x123456789ABCDEF0#64 8 4 = .ok 0xEF#64 ∧ getU 0x123456789ABCDEF0#64 4 60 = .ok 1#64 ∧
    getU 0x123456789ABCDEF0#64 64 0 = .ok 0x123456789ABCDEF0#64 ∧ getU 0x123456789ABCDEF0#64 0 64 = .ok 0#64 ∧
    getU 0x123456789ABCDEF0#64 8 60 = .error (.codecArgument 8 60) ∧
    getU 0x123456789ABCDEF0#64 65 0 = .error (.codecArgument 65 0) := by decide

theorem test_getS :
    getS 0x123456789ABCDEF0#64 4 4 = .ok (-1#64) ∧ getS 0x123456789ABCDEF0#64 8 0 = .ok (-16#64) ∧
    getS 0xFFFFFFFFFFFFFFFF#64 64 0 = .ok (-1#64) ∧ getS 0x123456789ABCDEF0#64 1 63 = .ok 0#64 ∧
    getS 0xFFFFFFFFFFFFFFFF#64 1 63 = .ok (-1#64) := by decide

theorem test_setU :
    setU 0 8 8 0xAB#64 = .ok 0xAB00#64 ∧ setU 0x123456789ABCDEF0#64 4 60 0xF#64 = .ok 0xF23456789ABCDEF0#64 ∧
    setU 0x123456789ABCDEF0#64 64 0 5#64 = .ok 5#64 ∧
    setU 0x123456789ABCDEF0#64 0 64 0#64 = .ok 0x123456789ABCDEF0#64 ∧
    setU 0 0 0 1#64 = .error (.overflow 1 0) ∧ setU 0 8 0 256#64 = .error (.overflow 256 8) := by decide

theorem test_setS :
    setS 0 4 0 (-1#64) = .ok 0xF#64 ∧ setS 0 8 8 (-128#64) = .ok 0x8000#64 ∧
    setS 0 4 0 8#64 = .error (.overflow 8 4) := by decide

theorem test_fits :
    fitsS (-8#64) 4 = .ok true ∧ fitsS 7#64 4 = .ok true ∧ fitsS (-9#64) 4 = .ok false ∧ fitsS 8#64 4 = .ok false ∧
    fitsS (-1#64) 1 = .ok true ∧ fitsS 1#64 1 = .ok false ∧ fitsS 0#64 0 = .ok true ∧ fitsS 1#64 0 = .ok false ∧
    fitsU 255#64 8 = .ok true ∧ fitsU 256#64 8 = .ok false ∧ fitsU 1#64 0 = .ok false ∧
    fitsU 0xFFFFFFFFFFFFFFFF#64 64 = .ok true ∧ fitsU 0xFFFFFFFFFFFFFFFF#64 63 = .ok false := by decide

/-! ### Register operations (part 2.3) -/

theorem test_cmov_moves : pcAnd 1 (vec 0x00000053#32 [(1, 5), (2, 9), (3, 1)] []) = some (1, 9) := by decide
theorem test_cmov_keeps : pcAnd 1 (vec 0x00000053#32 [(1, 5), (2, 9)] []) = some (1, 5) := by decide
theorem test_add_wraps : pcAnd 0 (vec 0x3000000A#32 [(1, 0xFFFFFFFF#32), (2, 2)] []) = some (1, 1) := by decide
theorem test_add_source_is_destination :
    pcAnd 1 (vec 0x30000049#32 [(1, 0x40000001#32)] []) = some (1, 0x80000002#32) := by decide
theorem test_mul_low_half :
    pcAnd 3 (vec 0x400000CA#32 [(1, 0x12345678#32), (2, 0x09ABCDEF#32)] []) = some (1, 0xE242D208#32) := by decide
theorem test_mul_wraps :
    pcAnd 3 (vec 0x400000CA#32 [(1, 0xFFFFFFFF#32), (2, 0xFFFFFFFF#32)] []) = some (1, 1) := by decide
theorem test_div_unsigned :
    pcAnd 3 (vec 0x500000CA#32 [(1, 0xFFFFFFFF#32), (2, 2)] []) = some (1, 0x7FFFFFFF#32) := by decide
theorem test_div_by_zero :
    (after (vec 0x50000088#32 [(1, 7)] [])).map (fun t => (t.status, t.pc, t.reg 2, t.fault)) =
      some (.faulted, 1, 0, some ⟨.divisionByZero, some 0, some 0x50000088#32⟩) := by decide
theorem test_nand :
    pcAnd 4 (vec 0x6000010A#32 [(1, 0xF0F0F0F0#32), (2, 0xFF00FF00#32)] []) = some (1, 0x0FFF0FFF#32) := by decide
theorem test_nand_is_not :
    pcAnd 4 (vec 0x60000109#32 [(1, 0x12345678#32)] []) = some (1, 0xEDCBA987#32) := by decide
theorem test_loadi_zero_extends :
    pcAnd 7 (vec 0xDFFFFFFF#32 [(7, 0xABCDEF01#32)] []) = some (1, 0x01FFFFFF#32) := by decide

/-! ### Segment operations (part 2.4) -/

theorem test_sload :
    pcAnd 4 (vec 0x1000010A#32 [(1, 1), (2, 2)] [.mapped (.ofWords [0, 0, 0x42, 0, 0])]) = some (1, 0x42) := by decide
theorem test_sload_end_of_segment :
    faultOf (vec 0x1000010A#32 [(1, 1), (2, 5)] [.mapped (.zeros 5)]) =
      some ⟨.segmentFault (.offsetOutOfRange 1 5), some 0, some 0x1000010A#32⟩ := by decide
theorem test_sstore :
    (after (vec 0x20000053#32 [(1, 1), (2, 2), (3, 0x42)] [.mapped (.zeros 5)])).map (fun t => t.segment? 1) =
      some (some (.ofWords [0, 0, 0x42, 0, 0])) := by decide
/-- The store into the program, and then the next step, which runs the stored halt. -/
theorem test_sstore_into_program :
    (after (vec 0x2000000A#32 [(1, 1), (2, 0x70000000#32)] [])).bind (fun t => (after t).map (fun u => (u.status, u.pc))) =
      some (.terminated, 5) := by decide
theorem test_unmap :
    (after (vec 0x90000002#32 [(2, 1)] [.mapped (.ofWords [7, 7])])).map (fun t => (t.segment? 1, t.free)) =
      some (none, [1]) := by decide
theorem test_unmap_zero :
    faultOf (vec 0x90000002#32 [(2, 0)] []) =
      some ⟨.segmentFault (.unmapSegmentZero 0), some 0, some 0x90000002#32⟩ := by decide

/-- Part 2.4's row with `free = [3, 1]` (top 1), under its premise that the store can supply the words. -/
theorem test_map_reuses_last_released (h : Config.canAllocate 5 2 = true) :
    ∃ t, exec (.map 1 5) { vec 0x8000000D#32 [(5, 2)] [.unmapped, .mapped (.zeros 0), .unmapped] with free := [1, 3] } =
      .next t ∧ t.reg 1 = 1 ∧ t.free = [3] ∧ t.segment? 1 = some (.zeros 2) ∧ t.slotCount = 4 := by
  have ha := (allocate_eq_ok (can := Config.canAllocate) (n := 2) (id := 1)
    (s := { vec 0x8000000D#32 [(5, 2)] [.unmapped, .mapped (.zeros 0), .unmapped] with free := [1, 3] })).2
    ⟨h, .inl ⟨[3], rfl, rfl⟩⟩
  refine ⟨_, congrArg (attempt _) (bind_eq_ok.2 ⟨1, rfl, bind_eq_ok.2 ⟨5, rfl, bind_eq_ok.2 ⟨_, ha, rfl⟩⟩⟩), ?_⟩
  decide

/-- Part 2.4's last row, under its premise. -/
theorem test_map_without_storage (h : Config.canAllocate 5 4 = false) :
    ∃ t, exec (.map 1 5) (vec 0x8000000D#32 [(5, 4)] []) = .next t ∧ t.status = .faulted ∧
      t.fault.map FaultRecord.raised = some (.allocationFailure 4) ∧ t.slotCount = 1 := by
  have ha := (allocate_eq_error (can := Config.canAllocate) (n := 4) (s := vec 0x8000000D#32 [(5, 4)] [])).2
    ⟨rfl, .inl h⟩
  refine ⟨_, congrArg (attempt _) (bind_eq_error.2 (.inr ⟨1, rfl, bind_eq_error.2 (.inr ⟨5, rfl,
    bind_eq_error.2 (.inl ha)⟩)⟩)), ?_⟩
  decide

/-- §8's property S3 on the store operation: a fresh id, then three words of 0. -/
theorem test_allocate :
    (allocate (fun _ _ => true) 3 State.reset).map (fun p => (p.1, p.2.segment? 1, memRead p.2 1 2)) =
      .ok (1, some (.zeros 3), .ok 0) := by decide

/-! ### Control (part 2.5) -/

theorem test_halt :
    (after (vec 0x70000000#32 [] [])).map (fun t => (t.pc, t.status, t.exitStatus)) =
      some (5, .terminated, some 0) := by decide
theorem test_loadp_jump :
    (after (vec 0xC0000010#32 [(0, 9)] [])).bind (fun t => (after t).map (fun u => (t.pc, t.status, u.pc, u.fault))) =
      some (9, .running, 9, some ⟨.segmentFault (.offsetOutOfRange 0 9), some 9, none⟩) := by decide

/-- Part 2.5's row with seg 1 = `[70000000]`, under the premise that the store can supply the copy. -/
theorem test_loadp_replaces (h : Config.canAllocate 1 1 = true) :
    ∃ t, exec (.loadp 2 0) (vec 0xC0000010#32 [(2, 1)] [.mapped (.ofWords [0x70000000#32])]) = .next t ∧ t.pc = 0 ∧
      t.segment? 0 = some (.ofWords [0x70000000#32]) ∧ t.segment? 1 = some (.ofWords [0x70000000#32]) := by
  have hr := (replaceProgram_eq_ok (can := Config.canAllocate) (id := 1)
    (s := vec 0xC0000010#32 [(2, 1)] [.mapped (.ofWords [0x70000000#32])])).2
    (.inr ⟨by decide, .ofWords [0x70000000#32], rfl, h, rfl⟩)
  refine ⟨_, congrArg (attempt _) (bind_eq_ok.2 ⟨2, rfl, bind_eq_ok.2 ⟨0, rfl, bind_eq_ok.2 ⟨_, hr, rfl⟩⟩⟩), ?_⟩
  decide

/-- Falling off the end of a one-word program. -/
theorem test_end_of_program :
    (after { vec 0 [] [] with slots := [.mapped (.ofWords [0xD0000041#32])] }).map
      (fun t => (t.reg 0, t.pc, t.status)) = some (0x41, 1, .terminated) := by decide
theorem test_illegal_opcode :
    (after (vec 0xF1234567#32 [] [])).map (fun t => (t.pc, t.fault)) =
      some (1, some ⟨.decodeError 15, some 0, some 0xF1234567#32⟩) := by decide

/-! ### Console (part 2.6) -/

theorem test_out : (after (vec 0xA0000000#32 [(0, 0xFF)] [])).map State.output = some [0xFF] := by decide
theorem test_out_range :
    (after (vec 0xA0000000#32 [(0, 0x100)] [])).map (fun t => (t.output, t.fault)) =
      some ([], some ⟨.outputRange 256, some 0, some 0xA0000000#32⟩) := by decide
theorem test_in_byte :
    pcAnd 3 { vec 0xB0000003#32 [] [] with consoleIn := [.byte 0xFF] } = some (1, 0xFF) := by decide
/-- No answer yet, then end-of-stream: `pc` is A + 1 throughout (10_state.md R21) and the instruction completes once. -/
theorem test_in_waits :
    (after { vec 0xB0000003#32 [] [] with consoleIn := [.noAnswer, .endOfStream] }).bind
      (fun t => (after t).map (fun u => (t.pc, t.reg 3, t.waiting, u.pc, u.reg 3, u.waiting))) =
      some (1, 0, some 3, 1, 0xFFFFFFFF#32, none) := by decide

/-! ### Image load and reset (part 2.7) -/

theorem test_load :
    (loadImage .fault (fun _ _ => true) (.image [0xD0, 0, 0, 0x41, 0xA0, 0, 0, 0, 0x70, 0, 0, 0]) State.reset).map
        (fun t => (t.segment? 0, t.status, t.pc)) =
      .ok (some (.ofWords [0xD0000041#32, 0xA0000000#32, 0x70000000#32]), .running, 0) := by decide
theorem test_load_trailing_bytes :
    (loadImage .fault (fun _ _ => true) (.image [1, 2, 3, 4, 5]) State.reset).map (fun t => t.segment? 0) =
      .error (.malformedImage 5) ∧
    (loadImage .drop (fun _ _ => true) (.image [1, 2, 3, 4, 5]) State.reset).map (fun t => t.segment? 0) =
      .ok (some (.ofWords [0x01020304#32])) := by decide
theorem test_load_unavailable :
    faultOf { State.reset with imageSource := some .failure } = some ⟨.ioUnavailable, none, none⟩ := by decide
theorem test_load_without_storage :
    (loadImage .fault (fun _ n => n != 2) (.image [0, 0, 0, 1, 0, 0, 0, 2]) State.reset).map (fun t => t.pc) =
      .error (.allocationFailure 2) := by decide

/-- The default policy (00_scope.md R8): with nothing set, a partial group is a fault. -/
theorem test_load_default_policy (h : Config.trailingBytesSetting = none) :
    faultOf { State.reset with imageSource := some (.image [1, 2, 3, 4, 5]) } =
      some ⟨.malformedImage 5, none, none⟩ := by
  simp only [faultOf, after, step, State.reset, State.load, State.imageAnswer, trailingBytesPolicy, h]
  decide

/-- A word placed by the host runs in the very next step after reset. -/
theorem test_withFetchWord :
    pcAnd 0 (State.reset.withFetchWord 32 0xD0000041) = some (1, 0x41) ∧
    pcAnd 0 ((State.reset.setPc 0xFFFFFFFF#32).withFetchWord 32 0xD0000041) = some (1, 0x41) ∧
    pcAnd 0 ((State.reset.setPc 7#32).withFetchWord 32 0xD0000041) = some (8, 0x41) := by decide

theorem test_fault_codes :
    FaultKind.code .decodeError = 1 ∧ FaultKind.code .codecArgumentError = 10 ∧
    Raised.subReason (.segmentFault (.doubleUnmap 1)) = some 4 ∧ Raised.subReason .divisionByZero = none := by decide

/-! ### Witnesses: encoding and codec -/

theorem reset_inv : State.reset.Inv := inv_of_check (by decide) (by decide) rfl rfl rfl (by decide)

theorem witness_wellFormed_instruction : -- O1, O5
    (Instr.cmov 7 0 7).wellFormed = true ∧ (Instr.loadi 7 0x1FFFFFF#25).wellFormed = true := by decide
theorem witness_every_opcode : -- O3 and the decode clause of each result
    opField 0x00000053#32 = 0 ∧ opField 0x1000010A#32 = 1 ∧ opField 0x20000053#32 = 2 ∧ opField 0x3000000A#32 = 3 ∧
    opField 0x400000CA#32 = 4 ∧ opField 0x500000CA#32 = 5 ∧ opField 0x6000010A#32 = 6 ∧ opField 0x70000000#32 = 7 ∧
    opField 0x8000000D#32 = 8 ∧ opField 0x90000002#32 = 9 ∧ opField 0xA0000000#32 = 10 ∧ opField 0xB0000003#32 = 11 ∧
    opField 0xC0000010#32 = 12 ∧ opField 0xDFFFFFFF#32 = 13 ∧ opField 0xE0000000#32 = 14 ∧
    opField 0xFFFFFFFF#32 = 15 := by decide
theorem witness_UnreadBitsHaveNoEffect :
    0x3FFFFE0A#32 &&& usedBits (opField 0x3FFFFE0A#32) = 0x3000000A#32 &&& usedBits (opField 0x3FFFFE0A#32) := by decide
theorem witness_EncoderRefusesWideRegisterIndex :
    (Instr.loadp 0 8).wellFormed = false ∧ (Instr.out (2 ^ 64)).wellFormed = false := by decide
theorem witness_codec_domain : -- the limits of w and lsb; O57 asks for w alone
    ((0 : Nat) ≤ 64 ∧ 64 + 0 ≤ 64) ∧ ((1 : Nat) ≤ 64 ∧ 63 + 1 ≤ 64) ∧ ((64 : Nat) ≤ 64 ∧ 0 + 64 ≤ 64) := by decide
theorem witness_GetSExtendsTheSign : getU 0xF0#64 4 4 = .ok 0xF#64 ∧ getU 0x70#64 4 4 = .ok 7#64 := by decide
theorem witness_SetU_fits_and_not : (255#64).toNat < 2 ^ 8 ∧ 2 ^ 8 ≤ (256#64).toNat ∧ (0#64).toNat < 2 ^ 0 := by decide
theorem witness_SetS_fits :
    (((0 : Nat) = 0 ∧ 0#64 = 0) ∨ (0 < 0 ∧ -(2 : Int) ^ (0 - 1) ≤ (0#64).toInt ∧ (0#64).toInt < (2 : Int) ^ (0 - 1))) ∧
    (((4 : Nat) = 0 ∧ -8#64 = 0) ∨
      (0 < 4 ∧ -(2 : Int) ^ (4 - 1) ≤ (-8#64).toInt ∧ (-8#64).toInt < (2 : Int) ^ (4 - 1))) := by decide
theorem witness_SetS_does_not_fit :
    ¬(((4 : Nat) = 0 ∧ 8#64 = 0) ∨ (0 < 4 ∧ -(2 : Int) ^ (4 - 1) ≤ (8#64).toInt ∧ (8#64).toInt < (2 : Int) ^ (4 - 1))) ∧
    ¬(((0 : Nat) = 0 ∧ 1#64 = 0) ∨ (0 < 0 ∧ -(2 : Int) ^ (0 - 1) ≤ (1#64).toInt ∧ (1#64).toInt < (2 : Int) ^ (0 - 1)))
    := by decide
theorem witness_CodecFieldsRoundTrip :
    setU 0x123456789ABCDEF0#64 8 8 0xAB#64 = .ok 0x123456789ABCABF0#64 ∧ setS 0 8 8 (-128#64) = .ok 0x8000#64 ∧
    getU 0x123456789ABCDEF0#64 4 60 = .ok 1#64 := by decide
theorem witness_DisjointFieldsAreIndependent :
    (8 + 8 ≤ 16 ∨ 16 + 4 ≤ 8) ∧ (60 + 4 ≤ 0 ∨ 0 + 60 ≤ 60) ∧
    setU 0x123456789ABCDEF0#64 8 8 0xAB#64 = .ok 0x123456789ABCABF0#64 ∧
    setU 0x123456789ABCDEF0#64 4 60 0xF#64 = .ok 0xF23456789ABCDEF0#64 := by decide
theorem witness_CodecRefusesArgumentsOutsideItsDomain : (64 < 65 ∨ 64 < 0 + 65) ∧ (64 < 8 ∨ 64 < 57 + 8) := by decide

/-! ### Witnesses: image load and the segment store -/

theorem witness_ImageLoadFillsSegmentZero :
    let bytes : List Byte := [0xD0, 0, 0, 0x41, 0xA0, 0, 0, 0]
    let s : State := { State.reset with imageSource := some (.image bytes) }
    s.Inv ∧ s.status = .loading ∧ s.imageSource = some (.image bytes) ∧ bytes.length % 4 = 0 ∧
      bytes.length / 4 < 2 ^ 32 :=
  ⟨inv_of_check (by decide) (by decide) rfl rfl rfl (by decide), rfl, rfl, by decide, by decide⟩
theorem witness_ImageLoad_no_image :
    let s : State := { State.reset with imageSource := some .failure }
    s.Inv ∧ s.status = .loading ∧ s.imageSource = some .failure :=
  ⟨inv_of_check (by decide) (by decide) rfl rfl rfl (by decide), rfl, rfl⟩
/-- A Loading block for which an image of `n` bytes of 0 has been placed. -/
def loadingOf (n : Nat) : State := { State.reset with imageSource := some (.image (List.replicate n 0)) }

theorem loadingOf_inv (n : Nat) : (loadingOf n).Inv :=
  ⟨reset_inv.store.of_eq rfl rfl, by simp [loadingOf, State.reset], fun _ => rfl,
    fun _ h => (by cases h), by simp [loadingOf, State.reset]⟩

theorem zeros_words (n : Nat) (h : n % 4 = 0) :
    (List.replicate n (0 : Byte)).length % 4 = 0 ∧ n / 4 ≤ (List.replicate n (0 : Byte)).length / 4 := by
  rw [List.length_replicate]; exact ⟨h, Nat.le_refl _⟩

/-- The least image too long for segment 0: 2^32 words. -/
theorem witness_ImageLoad_too_long :
    (loadingOf (2 ^ 34)).Inv ∧ (loadingOf (2 ^ 34)).status = .loading ∧
    (loadingOf (2 ^ 34)).imageSource = some (.image (List.replicate (2 ^ 34) 0)) ∧
    (List.replicate (2 ^ 34) (0 : Byte)).length % 4 = 0 ∧
    2 ^ 32 ≤ (List.replicate (2 ^ 34) (0 : Byte)).length / 4 :=
  have h : ∀ n : Nat, (loadingOf n).status = .loading ∧
      (loadingOf n).imageSource = some (.image (List.replicate n 0)) := fun _ => ⟨rfl, rfl⟩
  ⟨loadingOf_inv _, (h _).1, (h _).2, (zeros_words _ (by decide)).1, (zeros_words (2 ^ 34) (by decide)).2⟩
/-- The least image with a partial group and too many whole words, for the drop branch. -/
theorem witness_ImageLoad_trailing_bytes_too_long :
    (loadingOf (2 ^ 34 + 1)).Inv ∧ (loadingOf (2 ^ 34 + 1)).status = .loading ∧
    (loadingOf (2 ^ 34 + 1)).imageSource = some (.image (List.replicate (2 ^ 34 + 1) 0)) ∧
    (List.replicate (2 ^ 34 + 1) (0 : Byte)).length % 4 ≠ 0 ∧
    2 ^ 32 ≤ (List.replicate (2 ^ 34 + 1) (0 : Byte)).length / 4 :=
  have h : ∀ n : Nat, (loadingOf n).status = .loading ∧
      (loadingOf n).imageSource = some (.image (List.replicate n 0)) := fun _ => ⟨rfl, rfl⟩
  have hl : ∀ n : Nat, n % 4 ≠ 0 → 2 ^ 32 ≤ n / 4 → (List.replicate n (0 : Byte)).length % 4 ≠ 0 ∧
      2 ^ 32 ≤ (List.replicate n (0 : Byte)).length / 4 := fun n h1 h2 => by
    rw [List.length_replicate]; exact ⟨h1, h2⟩
  ⟨loadingOf_inv _, (h _).1, (h _).2, hl _ (by decide) (by decide)⟩
theorem witness_ImageLoad_trailing_bytes :
    let bytes : List Byte := [1, 2, 3, 4, 5]
    let s : State := { State.reset with imageSource := some (.image bytes) }
    s.Inv ∧ s.status = .loading ∧ s.imageSource = some (.image bytes) ∧ bytes.length % 4 ≠ 0 ∧
      bytes.length / 4 < 2 ^ 32 :=
  ⟨inv_of_check (by decide) (by decide) rfl rfl rfl (by decide), rfl, rfl, by decide, by decide⟩

/-- A store of five slots: the program, two words, two released ids (3 on top) and an empty segment. -/
def store5 : State :=
  { vec 0 [] [.mapped (.ofWords [7, 8]), .unmapped, .unmapped, .mapped (.zeros 0)] with free := [3, 2] }

theorem store5_inv : store5.Inv := inv_of_check (by decide) (by decide) rfl rfl rfl (by decide)

/-- A store of `n` mapped empty slots; with 2^32 of them no id is left. -/
def fullOf (n : Nat) : State := { State.reset with slots := List.replicate n (.mapped ⟨0, []⟩), status := .running }

theorem fullOf_storeInv (n : Nat) (h0 : 0 < n) (hn : n ≤ 2 ^ 32) : (fullOf n).StoreInv := by
  have hz : ∀ (k : Nat) (sl : Slot), (fullOf n).slots[k]? = some sl → sl = .mapped ⟨0, []⟩ := fun k sl h =>
    (List.mem_replicate.1 (List.mem_of_getElem? h)).2
  refine ⟨⟨⟨0, []⟩, ?_⟩, ?_, List.nodup_nil, ?_, ?_, ?_⟩
  · show (List.replicate n (Slot.mapped ⟨0, []⟩))[0]? = _
    rw [List.getElem?_replicate, if_pos h0]
  · show (List.replicate n (Slot.mapped ⟨0, []⟩)).length ≤ _
    rw [List.length_replicate]; exact hn
  · intro id h; cases h
  · intro id h; cases hz _ _ h
  · rw [Memory.wf_iff]
    intro k g h
    cases hz _ _ h
    decide

theorem fullOf_pool_and_count (n : Nat) : (fullOf n).free = [] ∧ (fullOf n).slotCount = n :=
  ⟨rfl, List.length_replicate⟩

theorem full_storeInv : (fullOf (2 ^ 32)).StoreInv := fullOf_storeInv _ (by decide) (Nat.le_refl _)

theorem witness_MemoryReadAfterWrite : -- the last word of segment 1
    store5.StoreInv ∧ (memWrite store5 1 1 9).isOk = true := ⟨store5_inv.store, by decide⟩
theorem witness_AllocateGivesAFreshZeroSegment : -- a released id; and, in the reset store, a fresh one of length 0
    (store5.StoreInv ∧ (fun _ _ => true : Nat → Nat → Bool) store5.liveWords (4 : Word).toNat = true ∧
      (store5.free = [] → store5.slotCount < 2 ^ 32)) ∧
    (State.reset.StoreInv ∧ (fun _ _ => true : Nat → Nat → Bool) State.reset.liveWords (0 : Word).toNat = true ∧
      (State.reset.free = [] → State.reset.slotCount < 2 ^ 32)) :=
  ⟨⟨store5_inv.store, rfl, by decide⟩, ⟨reset_inv.store, rfl, by decide⟩⟩
theorem witness_AllocateFailsWithoutStorageOrIds :
    (fun _ _ => false : Nat → Nat → Bool) store5.liveWords (4 : Word).toNat = false ∧
    ((fullOf (2 ^ 32)).free = [] ∧ (fullOf (2 ^ 32)).slotCount = 2 ^ 32) := ⟨rfl, fullOf_pool_and_count _⟩
theorem witness_ReleaseUnmapsAndPoolsTheId :
    ((2 : Word) ≠ 0 ∧ store5.segment? 2 = none) ∧ ((9 : Word) ≠ 0 ∧ store5.segment? 9 = none) ∧
    ((4 : Word) ≠ 0 ∧ store5.segment? 4 ≠ none) := by decide
theorem witness_ProgramReplacementIsADeepCopy :
    store5.StoreInv ∧ (1 : Word) ≠ 0 ∧ store5.segment? 1 = some (.ofWords [7, 8]) ∧
    (fun _ _ => true : Nat → Nat → Bool) (store5.liveWords - store5.programLength.toNat) 2 = true :=
  ⟨store5_inv.store, by decide, by decide, rfl⟩
theorem witness_SegmentsThatReadAlikeAreEqual :
    (Segment.zeros 2).wf = true ∧ (Segment.ofWords [0, 0]).wf = true ∧
    (Segment.zeros 2).len = (Segment.ofWords [0, 0]).len ∧
    ∀ o, o < (Segment.zeros 2).len → (Segment.zeros 2).get o = (Segment.ofWords [0, 0]).get o :=
  ⟨by decide, by decide, by decide, fun o _ => by rw [Segment.zeros_get, show Segment.ofWords [0, 0] = .zeros 2 from rfl, Segment.zeros_get]⟩

/-! ### Witnesses: the instructions -/

/-- Registers for the witnesses over `store5`: an id, a last and a first bad offset, id 0 and a nonexistent id. -/
def store5x : State := withRegs [(1, 1), (2, 1), (3, 2), (4, 9), (5, 255), (6, 256)] store5

theorem store5x_storeInv : store5x.StoreInv := storeInv_of_check (by decide)

theorem witness_DivideResult : store5x.reg 1 ≠ 0 ∧ store5x.reg 0 = 0 := by decide
theorem witness_SegmentLoad_and_Store :
    store5x.StoreInv ∧
    (store5x.segment? (store5x.reg 1) = some (.ofWords [7, 8]) ∧ store5x.reg 2 < (Segment.ofWords [7, 8]).len) ∧
    store5x.segment? (store5x.reg 4) = none ∧
    (store5x.segment? (store5x.reg 1) = some (.ofWords [7, 8]) ∧ (Segment.ofWords [7, 8]).len ≤ store5x.reg 3) :=
  ⟨store5x_storeInv, by decide, by decide, by decide⟩
/-- A pool with ids, a pool with none and ids left, and no id left. That the open capacity parameter grants or refuses a
request is the statement's own case. -/
theorem witness_MapSegmentResult :
    (store5x.StoreInv ∧ (store5x.free = [] → store5x.slotCount < 2 ^ 32)) ∧
    (State.reset.StoreInv ∧ (State.reset.free = [] → State.reset.slotCount < 2 ^ 32)) ∧
    ((fullOf (2 ^ 32)).StoreInv ∧ (fullOf (2 ^ 32)).free = [] ∧ (fullOf (2 ^ 32)).slotCount = 2 ^ 32) :=
  ⟨⟨store5x_storeInv, by decide⟩, ⟨reset_inv.store, by decide⟩, full_storeInv, fullOf_pool_and_count _⟩
theorem witness_UnmapSegmentResult :
    (store5x.reg 1 ≠ 0 ∧ store5x.segment? (store5x.reg 1) ≠ none) ∧ store5x.reg 0 = 0 ∧
    (store5x.reg 3 ≠ 0 ∧ store5x.segment? (store5x.reg 3) = none) := by decide
theorem witness_HaltResult :
    (vec 0x70000000#32 [] []).status = .running ∧ (vec 0x70000000#32 [] []).waiting = none ∧
    memRead (vec 0x70000000#32 [] []) 0 (vec 0x70000000#32 [] []).pc = .ok 0x70000000#32 ∧
    opField 0x70000000#32 = 7 := by decide
theorem witness_LoadProgramResult :
    store5x.StoreInv ∧ store5x.reg 0 = 0 ∧
    (store5x.reg 1 ≠ 0 ∧ store5x.segment? (store5x.reg 1) = some (.ofWords [7, 8])) ∧
    (store5x.reg 4 ≠ 0 ∧ store5x.segment? (store5x.reg 4) = none) :=
  ⟨store5x_storeInv, by decide, by decide, by decide⟩
theorem witness_OutputResult : (store5x.reg 5).toNat ≤ 255 ∧ 255 < (store5x.reg 6).toNat := by decide
theorem witness_InputResult :
    ([.byte 255] : List ConsoleReply).headD (Config.consoleReply 0) = .byte 255 ∧
    ([.endOfStream] : List ConsoleReply).headD (Config.consoleReply 0) = .endOfStream ∧
    ([.noAnswer] : List ConsoleReply).headD (Config.consoleReply 0) = .noAnswer := ⟨rfl, rfl, rfl⟩
theorem witness_BadRegisterIndexFaultsFirst : (Instr.add 0 8 9).wellFormed = false := by decide

/-! ### Witnesses: the controller and the whole machine -/

/-- A state of part 2's vectors for which the host has placed "no answer yet". -/
def toldToWait (word : Word) : State := { vec word [] [] with consoleIn := [.noAnswer] }

/-- A state in which `in r3` at address 0 waits, with a reply placed. -/
def waitingFor (reply : ConsoleReply) : State :=
  { vec 0xB0000003#32 [] [] with
    pc := 1
    inFlight := some ⟨0, some 0xB0000003#32⟩
    waiting := some 3
    consoleIn := [reply] }

theorem vec_reads_input : memRead (vec 0xB0000003#32 [] []) 0 0 = .ok 0xB0000003#32 := by decide

theorem waitingFor_inv (reply : ConsoleReply) : (waitingFor reply).Inv := by
  have e : (waitingFor reply).pc - 1 = 0 := by
    show (1 : Word) - 1 = 0
    decide
  refine ⟨(storeInv_of_check (s := vec 0xB0000003#32 [] []) (by decide)).of_eq rfl rfl,
    by simp [waitingFor, vec, withRegs, State.reset], fun h => (by cases h), fun c hc => ?_, fun h => (by cases h)⟩
  cases hc
  rw [e]
  exact ⟨rfl, 0xB0000003#32, rfl, vec_reads_input, by decide⟩
theorem witness_StepRunsTheDecodedInstruction :
    (vec 0x3000000A#32 [] []).status = .running ∧ (vec 0x3000000A#32 [] []).waiting = none ∧
    memRead (vec 0x3000000A#32 [] []) 0 (vec 0x3000000A#32 [] []).pc = .ok 0x3000000A#32 ∧
    decode 0x3000000A#32 = .ok (.add 0 1 2) := by decide
/-- `pc` at the length of segment 0, the first word the fetch cannot read. -/
theorem witness_FetchBeyondTheProgramFaults :
    ((vec 0 [] []).setPc 5).Inv ∧ ((vec 0 [] []).setPc 5).status = .running ∧ ((vec 0 [] []).setPc 5).waiting = none ∧
    ((vec 0 [] []).setPc 5).programLength ≤ ((vec 0 [] []).setPc 5).pc :=
  ⟨inv_of_check (by decide) (by decide) rfl rfl rfl (by decide), by decide, by decide, by decide⟩
theorem witness_IllegalOpcodeRaisesDecodeError :
    (vec 0xE0000000#32 [] []).status = .running ∧ (vec 0xE0000000#32 [] []).waiting = none ∧
    memRead (vec 0xE0000000#32 [] []) 0 (vec 0xE0000000#32 [] []).pc = .ok 0xE0000000#32 ∧
    14 ≤ opField 0xE0000000#32 ∧ 14 ≤ opField 0xF0000000#32 := by decide
/-- A step that ends the run, one that does not, and one that waits. -/
theorem witness_TerminationCheckIsEquality :
    (∃ t, (vec 0x70000000#32 [] []).status = .running ∧ step (vec 0x70000000#32 [] []) = .next t ∧
      t.status ≠ .faulted ∧ t.waiting = none ∧ t.status = .terminated) ∧
    (∃ t, (vec 0x3000000A#32 [] []).status = .running ∧ step (vec 0x3000000A#32 [] []) = .next t ∧
      t.status ≠ .faulted ∧ t.waiting = none ∧ t.status = .running) ∧
    ∃ t, (toldToWait 0xB0000003#32).status = .running ∧ step (toldToWait 0xB0000003#32) = .next t ∧
      t.status ≠ .faulted ∧ t.waiting ≠ none :=
  ⟨⟨_, rfl, rfl, by decide⟩, ⟨_, rfl, rfl, by decide⟩, ⟨_, rfl, rfl, by decide⟩⟩
theorem witness_ProgramCounter_halt :
    ∃ t, (vec 0x70000000#32 [] []).status = .running ∧ (vec 0x70000000#32 [] []).waiting = none ∧
      memRead (vec 0x70000000#32 [] []) 0 (vec 0x70000000#32 [] []).pc = .ok 0x70000000#32 ∧
      decode 0x70000000#32 = .ok .halt ∧ step (vec 0x70000000#32 [] []) = .next t ∧ t.status ≠ .faulted :=
  ⟨_, rfl, rfl, by decide, by decide, rfl, by decide⟩
theorem witness_ProgramCounter_loadp :
    ∃ t, (vec 0xC0000010#32 [(0, 3)] []).status = .running ∧ (vec 0xC0000010#32 [(0, 3)] []).waiting = none ∧
      memRead (vec 0xC0000010#32 [(0, 3)] []) 0 (vec 0xC0000010#32 [(0, 3)] []).pc = .ok 0xC0000010#32 ∧
      decode 0xC0000010#32 = .ok (.loadp 2 0) ∧ step (vec 0xC0000010#32 [(0, 3)] []) = .next t ∧
      t.status ≠ .faulted :=
  ⟨_, rfl, rfl, by decide, by decide, rfl, by decide⟩
/-- An Input that waits, and a Divide that faults. -/
theorem witness_ProgramCounter_other :
    (∃ t, (toldToWait 0xB0000003#32).status = .running ∧ (toldToWait 0xB0000003#32).waiting = none ∧
      memRead (toldToWait 0xB0000003#32) 0 (toldToWait 0xB0000003#32).pc = .ok 0xB0000003#32 ∧
      decode 0xB0000003#32 = .ok (.inp 3) ∧ step (toldToWait 0xB0000003#32) = .next t ∧ t.status ≠ .faulted) ∧
    ∃ t, (vec 0x50000088#32 [] []).status = .running ∧ (vec 0x50000088#32 [] []).waiting = none ∧
      memRead (vec 0x50000088#32 [] []) 0 (vec 0x50000088#32 [] []).pc = .ok 0x50000088#32 ∧
      decode 0x50000088#32 = .ok (.div 2 1 0) ∧ step (vec 0x50000088#32 [] []) = .next t ∧ t.status = .faulted :=
  ⟨⟨_, rfl, rfl, by decide, by decide, rfl, by decide⟩, ⟨_, rfl, rfl, by decide, by decide, rfl, by decide⟩⟩
/-- The store goes to the last word of the program. -/
theorem witness_StoreToProgramIsFetchedNext :
    let s : State := (withRegs [(1, 4), (2, 0x70000000#32)] { State.reset with
      status := .running
      slots := [.mapped (.ofWords [0, 0, 0, 0x2000000A#32, 0])] }).setPc 3
    s.Inv ∧ s.status = .running ∧ s.waiting = none ∧ memRead s 0 s.pc = .ok 0x2000000A#32 ∧
      decode 0x2000000A#32 = .ok (.sstore (0 : Fin 8) (1 : Fin 8) (2 : Fin 8)) ∧ s.reg 0 = 0 ∧ s.reg 1 = s.pc + 1 ∧
      s.pc + 1 < s.programLength :=
  ⟨inv_of_check (by decide) (by decide) rfl rfl rfl (by decide), rfl, rfl, by decide, by decide, by decide, by decide, by decide⟩
theorem witness_OnlyEndedRunsTakeNoStep :
    State.reset.status = .loading ∧ (vec 0 [] []).status = .running ∧
    (after (vec 0x70000000#32 [] [])).map State.status = some .terminated ∧
    (after (vec 0xE0000000#32 [] [])).map State.status = some .faulted := by decide
/-- From a Running, a Loading and a waiting state. -/
theorem witness_EveryStepKeepsTheInvariant :
    (∃ t, store5.Inv ∧ step store5 = .next t) ∧ (∃ t, State.reset.Inv ∧ step State.reset = .next t) ∧
    ∃ t, (waitingFor .endOfStream).Inv ∧ step (waitingFor .endOfStream) = .next t :=
  ⟨⟨_, store5_inv, rfl⟩, ⟨_, reset_inv, rfl⟩, ⟨_, waitingFor_inv _, rfl⟩⟩
theorem witness_FaultsArePrecise : -- and EachInstructionRaisesOnlyItsFaults
    ∃ t, (Instr.div 2 1 0).wellFormed = true ∧ (vec 0 [] []).status ≠ .faulted ∧
      exec (.div 2 1 0) (vec 0 [] []) = .next t ∧ t.status = .faulted :=
  ⟨_, by decide, by decide, rfl, by decide⟩
theorem witness_OnlyTheDestinationRegisterChanges :
    ∃ t, exec (.add 7 1 2) store5x = .next t ∧ ((0 : Fin 8) : Nat) ∉ mayWrite (.add 7 1 2) := ⟨_, rfl, by decide⟩
theorem witness_OnlyFourInstructionsChangeTheStore :
    ∃ t, changesStore (.add 7 1 2) = false ∧ exec (.add 7 1 2) store5x = .next t := ⟨_, rfl, rfl⟩
theorem witness_SlotCountOnlyGrows : ∃ t, step store5 = .next t := ⟨_, rfl⟩
theorem witness_OutputLogOnlyGrows :
    (∃ t, step (vec 0xA0000000#32 [(0, 65)] []) = .next t) ∧
    ∃ t, exec (.out 0) (vec 0xA0000000#32 [(0, 65)] []) = .next t ∧ t.output ≠ (vec 0xA0000000#32 [(0, 65)] []).output :=
  ⟨⟨_, rfl⟩, ⟨_, rfl, by decide⟩⟩
theorem witness_ExitStatusTellsSuccessFromFailure : store5.Inv ∧ State.reset.Inv := ⟨store5_inv, reset_inv⟩
theorem witness_FitsDecidesTheRange : (0 : Nat) ≤ 64 ∧ (63 : Nat) ≤ 64 ∧ (64 : Nat) ≤ 64 := by decide
theorem witness_UnansweredInputHoldsTheBlock :
    ((toldToWait 0xB0000003#32).status = .running ∧ (toldToWait 0xB0000003#32).waiting = none ∧
      memRead (toldToWait 0xB0000003#32) 0 (toldToWait 0xB0000003#32).pc = .ok 0xB0000003#32 ∧
      decode 0xB0000003#32 = .ok (.inp (3 : Fin 8)) ∧ (toldToWait 0xB0000003#32).consoleReply = .noAnswer) ∧
    ((waitingFor .noAnswer).status = .running ∧ (waitingFor .noAnswer).waiting = some 3 ∧
      (waitingFor .noAnswer).consoleReply = .noAnswer) := by decide
theorem witness_AnswerEndsTheWait :
    ((waitingFor (.byte 255)).status = .running ∧ (waitingFor (.byte 255)).waiting = some 3 ∧
      (waitingFor (.byte 255)).consoleReply ≠ .noAnswer) ∧
    ((waitingFor .endOfStream).status = .running ∧ (waitingFor .endOfStream).waiting = some 3 ∧
      (waitingFor .endOfStream).consoleReply ≠ .noAnswer) := by decide
theorem witness_ProgramCounterIsNoOperand :
    (∃ t, exec (.add 7 1 2) store5x = .next t) ∧ ∃ t, exec .halt store5x = .next t := ⟨⟨_, rfl⟩, ⟨_, rfl⟩⟩

end Sys2Proof.Tests
end

section
/-! What reset leaves in the register file (10_state.md R19). -/

namespace Sys2Proof.Machine

@[simp] theorem State.reset_regs : State.reset.regs = Vector.replicate 8 0 := rfl

/-- Every index of the reset register file is one of the replicated zeros. -/
@[simp] theorem State.reset_reg (r : Fin 8) : State.reset.reg r = 0 := by
  simp [State.reg]

/-- Settles O15, by the reading of a register at reset. -/
theorem resetClearsEveryRegister : Obligations.ResetClearsEveryRegister :=
  State.reset_reg

end Sys2Proof.Machine
end

section
/-! The extractors of the codec (30_encoding.md R83, R84) on a carrier: inside the domain GetU is the zero-extended and
GetS the sign-extended field `[lsb, lsb+w)`. -/

namespace Sys2Proof.Machine.Codec

theorem getU_in {w lsb : Nat} (h : w ≤ 64 ∧ lsb + w ≤ 64) (word : Carrier) :
    getU word w lsb = .ok (getUBody word w lsb) :=
  guarded_in h _

theorem getS_in {w lsb : Nat} (h : w ≤ 64 ∧ lsb + w ≤ 64) (word : Carrier) :
    getS word w lsb = .ok (getSBody word w lsb) :=
  guarded_in h _

@[simp] theorem getSBody_width_zero (word : Carrier) (lsb : Nat) : getSBody word 0 lsb = 0#64 := rfl

theorem getUBody_eq_setWidth {w : Nat} (h : w ≤ 64) (word : Carrier) (lsb : Nat) :
    getUBody word w lsb = (word.extractLsb' lsb w).setWidth 64 := by
  apply BitVec.eq_of_getLsbD_eq
  intro i hi
  rw [getUBody_getLsbD h, BitVec.getLsbD_setWidth, BitVec.getLsbD_extractLsb']
  simp [hi]

theorem getUBody_toNat {w : Nat} (h : w ≤ 64) (word : Carrier) (lsb : Nat) :
    (getUBody word w lsb).toNat = (word.extractLsb' lsb w).toNat := by
  rw [getUBody_eq_setWidth h, BitVec.toNat_setWidth_of_le h]

/-- The sign bit GetS inspects is the top bit of what GetU reads. -/
theorem extractLsb'_msb_eq_getUBody {w : Nat} (h : w ≤ 64) (word : Carrier) (lsb : Nat) :
    (word.extractLsb' lsb w).msb = (getUBody word w lsb).getLsbD (w - 1) := by
  rw [BitVec.msb_eq_getLsbD_last, BitVec.getLsbD, BitVec.getLsbD, getUBody_toNat h]

theorem getSBody_eq_signExtend {w : Nat} (h : w ≤ 64) (hw : 0 < w) (word : Carrier) (lsb : Nat) :
    getSBody word w lsb = (word.extractLsb' lsb w).signExtend 64 := by
  apply BitVec.eq_of_getLsbD_eq
  intro i hi
  rw [getSBody_getLsbD h hw word lsb i hi, BitVec.getLsbD_signExtend, BitVec.msb_eq_getLsbD_last,
    BitVec.getLsbD_extractLsb', BitVec.getLsbD_extractLsb']
  by_cases hiw : i < w
  · have hmin : min i (w - 1) = i := by omega
    simp [hi, hiw, hmin]
  · have hmin : min i (w - 1) = w - 1 := by omega
    simp [hi, hiw, hmin, hw]

/-- GetS as a number: `u - 2^w` when the field's top bit is set, else `u`. -/
theorem getSBody_toInt {w : Nat} (h : w ≤ 64) (hw : 0 < w) (word : Carrier) (lsb : Nat) :
    (getSBody word w lsb).toInt =
      if (getUBody word w lsb).getLsbD (w - 1) then ((getUBody word w lsb).toNat : Int) - 2 ^ w
      else ((getUBody word w lsb).toNat : Int) := by
  rw [getSBody_eq_signExtend h hw, BitVec.toInt_signExtend_of_le h, BitVec.toInt_eq_msb_cond,
    extractLsb'_msb_eq_getUBody h, getUBody_toNat h]
  simp

/-- Settles O8, by the bits of the extractor's body inside the domain. -/
theorem getUReadsTheField : Obligations.GetUReadsTheField := fun word _ lsb hw hd =>
  ⟨_, getU_in ⟨hw, hd⟩ word, getUBody_getLsbD hw word lsb⟩

/-- Settles O9: GetS is the sign-extended field, read bit by bit and as a number. -/
theorem getSExtendsTheSign : Obligations.GetSExtendsTheSign := by
  intro word w lsb hw hd
  refine ⟨_, getS_in ⟨hw, hd⟩ word, ?_, fun hpos => getSBody_getLsbD hw hpos word lsb, ?_⟩
  · rintro rfl
    exact getSBody_width_zero word lsb
  · intro hpos u hu
    rw [getU_in ⟨hw, hd⟩] at hu
    cases hu
    exact getSBody_toInt hw hpos word lsb

end Sys2Proof.Machine.Codec
end

section
/-! The decoder's field extraction and its rejection of the illegal opcodes (30_encoding.md R65 to R68, R75). -/

namespace Sys2Proof

open Machine Machine.Codec

/-- The decoder's test of the extracted opcode is a test of `word[31:28]`. -/
theorem getUBody_opcode_eq_iff (w : Word) {n : Nat} (hn : n < 2 ^ 64) :
    getUBody (w.zeroExtend 64) 4 28 = BitVec.ofNat 64 n ↔ opField w = n := by
  rw [opField, ← getUBody_zeroExtend w 4 28 (by omega), ← BitVec.toNat_inj, BitVec.toNat_ofNat, Nat.mod_eq_of_lt hn]

theorem getUBody_truncate_eq_literalField (w : Word) :
    (getUBody (w.zeroExtend 64) 25 0).truncate 25 = literalField w := by
  apply BitVec.eq_of_toNat_eq
  rw [BitVec.truncate_eq_setWidth, BitVec.toNat_setWidth, getUBody_zeroExtend w 25 0 (by omega)]
  exact Nat.mod_eq_of_lt (literalField w).isLt

/-- Settles O2, by the choice of the format: each extracted field is the field of the word. -/
theorem everyWordDecodesToItsFields : Obligations.EveryWordDecodesToItsFields := by
  intro w
  have hop : (getUBody (w.zeroExtend 64) 4 28).toNat = opField w := getUBody_zeroExtend w 4 28 (by omega)
  have h13 : getUBody (w.zeroExtend 64) 4 28 = 13 ↔ opField w = 13 :=
    getUBody_opcode_eq_iff w (n := 13) (by omega)
  simp only [decodeFields]
  rw [getU_word _ _ _ (by omega), bind_ok]
  by_cases h : opField w = 13
  · rw [if_pos h, if_pos (h13.2 h), getU_word _ _ _ (by omega), bind_ok, getU_word _ _ _ (by omega), bind_ok,
      getUBody_truncate_eq_literalField, hop, h, getUBody_zeroExtend w 3 25 (by omega)]
    rfl
  · rw [if_neg h, if_neg (mt h13.1 h), getU_word _ _ _ (by omega), bind_ok, getU_word _ _ _ (by omega), bind_ok,
      getU_word _ _ _ (by omega), bind_ok, hop, getUBody_zeroExtend w 3 6 (by omega),
      getUBody_zeroExtend w 3 3 (by omega), getUBody_zeroExtend w 3 0 (by omega)]
    rfl

/-- Dispatch selects no operation for an opcode above 13 (R75). -/
theorem Fields.instr_of_illegal {op : Nat} (h : 14 ≤ op) (a b c : Nat) :
    (Fields.formS op a b c).instr = .error (.decodeError op) := by
  obtain ⟨k, rfl⟩ := Nat.exists_eq_add_of_le' h
  rfl

theorem decode_of_illegal {w : Word} (h : 14 ≤ opField w) : decode w = .error (.decodeError (opField w)) := by
  have hne : opField w ≠ 13 := by omega
  rw [decode, everyWordDecodesToItsFields w, bind_ok, if_neg hne, Fields.instr_of_illegal h]

end Sys2Proof
end

section
/-! A step whose fetched word the decoder rejects (42_control.md R102; 60_exceptions.md R117, R128 to R130). -/

namespace Sys2Proof.Machine

/-- The segment store is what the slots and the pool hold. -/
theorem SameStore.of_eq {s t : State} (hs : t.slots = s.slots) (hf : t.free = s.free) : SameStore s t := by
  have hseg : ∀ id, t.segment? id = s.segment? id := fun id => by rw [State.segment?, State.segment?, hs]
  have hread : ∀ id o, memRead t id o = memRead s id o := fun id o => by
    rw [memRead, memRead, lookup, lookup, hseg]
  exact ⟨by rw [State.slotCount, State.slotCount, hs], hf, fun id => by rw [hseg], hread⟩

/-- A word the decoder rejects enters its fault after the advance. -/
theorem step_of_decode_error {s : State} {w : Word} {f : Raised} (hs : s.status = .running) (hw : s.waiting = none)
    (hm : memRead s 0 s.pc = .ok w) (hd : decode w = .error f) : step s = .next ((s.advance w).raiseFault f) := by
  have hf : fetch s = .ok w := hm
  simp only [step, hs, runStep, hw, runInstruction, hf, hd]

/-- Settles O44: the decoder rejects the word, so the fault is entered from the advanced state and nothing else is
changed. -/
theorem illegalOpcodeRaisesDecodeError : Obligations.IllegalOpcodeRaisesDecodeError := fun _ _ hs hw hm hop =>
  ⟨_, step_of_decode_error hs hw hm (decode_of_illegal hop), rfl, rfl, rfl, fun _ _ => rfl, .of_eq rfl rfl,
    ⟨rfl, rfl, rfl, rfl⟩, rfl⟩

end Sys2Proof.Machine
end

section
/-! The decoder by the format of the word (30_encoding.md R67, R68, R73). -/

namespace Sys2Proof

open Machine

theorem decode_of_formatS {w : Word} (h : opField w ≠ 13) :
    decode w = (Fields.formS (opField w) (aField w) (bField w) (cField w)).instr := by
  rw [decode, everyWordDecodesToItsFields w, bind_ok, if_neg h]

theorem decode_of_formatI {w : Word} (h : opField w = 13) :
    decode w = .ok (.loadi (immediateAField w) (literalField w)) := by
  rw [decode, everyWordDecodesToItsFields w, bind_ok, if_pos h]
  rfl

/-- The form for a known Format S opcode: the choice of the operation computes on a numeral. -/
theorem decode_of_opcode {w : Word} {op : Nat} (h : opField w = op) (hop : op ≠ 13) :
    decode w = (Fields.formS op (aField w) (bField w) (cField w)).instr := by
  subst h
  exact decode_of_formatS hop

end Sys2Proof
end

section
/-! The register operations without a fault of their own (40_register_ops.md R90 to R92, R94, R95): what each answers on
the registers the machine has, its result as a number or bit by bit, and the frame of a register write. -/

namespace Sys2Proof.Machine

/-! ### Frames -/

theorem OnlyRegs.refl (ds : List (Fin 8)) (s : State) : OnlyRegs ds s s :=
  ⟨fun _ _ => rfl, rfl, .of_eq rfl rfl, ⟨rfl, rfl, rfl⟩, ⟨rfl, rfl, rfl, rfl⟩, rfl⟩

theorem OnlyRegs.setReg (s : State) (r : Fin 8) (v : Word) : OnlyRegs [r] s (s.setReg r v) :=
  ⟨fun q hq => State.reg_setReg_other s r q v (mt List.mem_singleton.2 hq), rfl, .of_eq rfl rfl, ⟨rfl, rfl, rfl⟩,
    ⟨rfl, rfl, rfl, rfl⟩, rfl⟩

/-! ### Results -/

theorem addResult_toNat (v w : Word) : (addResult v w).toNat = (v.toNat + w.toNat) % 2 ^ 32 :=
  BitVec.toNat_add v w

theorem mulResult_toNat (v w : Word) : (mulResult v w).toNat = v.toNat * w.toNat % 2 ^ 32 :=
  BitVec.toNat_mul v w

theorem nandResult_getLsbD (v w : Word) {k : Nat} (hk : k < 32) :
    (nandResult v w).getLsbD k = !(v.getLsbD k && w.getLsbD k) := by
  rw [nandResult, BitVec.getLsbD_not, BitVec.getLsbD_and, decide_eq_true hk, Bool.true_and]

/-- The literal is extended, so no bit of it is lost (R69). -/
theorem literalValue_toNat (literal : BitVec 25) : (literalValue literal).toNat = literal.toNat :=
  BitVec.toNat_setWidth_of_le (by omega)

/-! ### Meanings on the registers the machine has -/

section
variable (a b c : Fin 8) (s : State)

theorem exec_cmov_of_zero (h : s.reg c = 0) : exec (.cmov a b c) s = .next s := by
  simp only [exec, execCmov, regIx_fin, bind_ok, if_pos h, attempt_ok]

theorem exec_cmov_of_ne_zero (h : s.reg c ≠ 0) : exec (.cmov a b c) s = .next (s.setReg a (s.reg b)) := by
  simp only [exec, execCmov, regIx_fin, bind_ok, if_neg h, attempt_ok]

theorem exec_add : exec (.add a b c) s = .next (s.setReg a (addResult (s.reg b) (s.reg c))) := by
  simp [exec, execAdd]

theorem exec_mul : exec (.mul a b c) s = .next (s.setReg a (mulResult (s.reg b) (s.reg c))) := by
  simp [exec, execMul]

theorem exec_nand : exec (.nand a b c) s = .next (s.setReg a (nandResult (s.reg b) (s.reg c))) := by
  simp [exec, execNand]

theorem exec_loadi (literal : BitVec 25) : exec (.loadi a literal) s = .next (s.setReg a (literalValue literal)) := by
  simp [exec, execLoadi]

end

end Sys2Proof.Machine

namespace Sys2Proof.RegisterOps

open Sys2Proof.Machine

/-- Settles O27, by the test of `x[c]`: on 0 the state is the one before, else `x[b]` is written. -/
theorem conditionalMoveResult : Obligations.ConditionalMoveResult := by
  refine ⟨fun w h => decode_of_opcode h (by omega), fun a b c s => ?_⟩
  by_cases hc : s.reg c = 0
  · exact ⟨s, exec_cmov_of_zero a b c s hc, by rw [if_neg (not_not.2 hc)], .refl [a] s⟩
  · exact ⟨_, exec_cmov_of_ne_zero a b c s hc, by rw [if_pos hc, State.reg_setReg_same], .setReg s a _⟩

/-- Settles O28: one register write, of the sum modulo 2^32. -/
theorem addResult : Obligations.AddResult :=
  ⟨fun _ h => decode_of_opcode h (by omega), fun a b c s =>
    ⟨_, exec_add a b c s, by rw [State.reg_setReg_same, addResult_toNat], .setReg s a _⟩⟩

/-- Settles O29: one register write, of the low half of the product. -/
theorem multiplyResult : Obligations.MultiplyResult :=
  ⟨fun _ h => decode_of_opcode h (by omega), fun a b c s =>
    ⟨_, exec_mul a b c s, by rw [State.reg_setReg_same, mulResult_toNat], .setReg s a _⟩⟩

/-- Settles O31: one register write, of a word whose bits are the complemented conjunctions. -/
theorem nandResult : Obligations.NandResult :=
  ⟨fun _ h => decode_of_opcode h (by omega), fun a b c s =>
    ⟨_, exec_nand a b c s, fun _ hk => by rw [State.reg_setReg_same, nandResult_getLsbD _ _ hk], .setReg s a _⟩⟩

/-- Settles O32: Format I, and one register write of the extended literal. -/
theorem loadImmediateResult : Obligations.LoadImmediateResult :=
  ⟨fun _ h => decode_of_formatI h, fun a literal s =>
    ⟨_, exec_loadi a s literal, by rw [State.reg_setReg_same, literalValue_toNat], .setReg s a _⟩⟩

end Sys2Proof.RegisterOps
end

section
/-! The segment operations Segment Load, Segment Store and Unmap Segment (41_segment_ops.md R97, R98, R100): what a read
finds after a write, what an operation on the store leaves unchanged, and what each instruction answers on the registers
the machine has. -/

namespace Sys2Proof.Machine

/-! ### Reading memory -/

theorem memRead_of_segment {s : State} {id : Word} {g : Segment} (h : s.segment? id = some g) (o : Word) :
    memRead s id o = if o < g.len then .ok (g.get o) else .error (.segmentFault (.offsetOutOfRange id o)) := by
  rw [memRead, lookup_eq_ok.2 h, bind_ok]

section
variable {s t : State} {id o v : Word}

/-- A write replaces one segment, by itself with the word set. -/
theorem memWrite_segment (h : memWrite s id o v = .ok t) :
    ∃ g, s.segment? id = some g ∧ o < g.len ∧ t.segment? id = some (g.set o v) ∧
      ∀ q, q ≠ id → t.segment? q = s.segment? q := by
  obtain ⟨g, hg, ho, rfl⟩ := memWrite_eq_ok.1 h
  exact ⟨g, hg, ho, s.segment?_setSlot_mapped _ (State.lt_of_segment? hg), fun _ => s.segment?_setSlot_other _⟩

theorem memRead_memWrite_same (hwf : Memory.wf s.slots = true) (h : memWrite s id o v = .ok t) :
    memRead t id o = .ok v := by
  obtain ⟨g, hg, ho, ht, -⟩ := memWrite_segment h
  exact memRead_eq_ok.2 ⟨_, ht, ho, by rw [Segment.get_set (State.segment?_wf hwf hg), if_pos rfl]⟩

/-- A read elsewhere is as before, its faults included: at another offset of the same segment the length is the same, and
another segment is the same. -/
theorem memRead_memWrite_other (hwf : Memory.wf s.slots = true) (h : memWrite s id o v = .ok t) {q p : Word}
    (hne : ¬(q = id ∧ p = o)) : memRead t q p = memRead s q p := by
  obtain ⟨g, hg, -, ht, hother⟩ := memWrite_segment h
  by_cases hq : q = id
  · subst hq
    have hp : p ≠ o := fun e => hne ⟨rfl, e⟩
    rw [memRead_of_segment ht, memRead_of_segment hg, Segment.get_set (State.segment?_wf hwf hg), if_neg hp,
      Segment.set_len]
  · exact memRead_congr (hother q hq) p

theorem memWrite_keeps_lengths (h : memWrite s id o v = .ok t) (q : Word) :
    (t.segment? q).map Segment.len = (s.segment? q).map Segment.len := by
  obtain ⟨g, hg, -, ht, hother⟩ := memWrite_segment h
  by_cases hq : q = id
  · rw [hq, ht, hg, Option.map_some, Option.map_some, Segment.set_len]
  · rw [hother q hq]

end

/-! ### Frames -/

/-- Nothing outside the segment store is changed. -/
def OnlyStore (s t : State) : Prop :=
  SameRegsBut [] s t ∧ t.pc = s.pc ∧ SameControl s t ∧ SameInputs s t ∧ t.output = s.output

theorem OnlyStore.withStore (s : State) (slots : List Slot) (free : List Word) :
    OnlyStore s { s with slots := slots, free := free } :=
  ⟨fun _ _ => rfl, rfl, ⟨rfl, rfl, rfl⟩, ⟨rfl, rfl, rfl, rfl⟩, rfl⟩

theorem memWrite_frame {s t : State} {id o v : Word} (h : memWrite s id o v = .ok t) :
    t.slotCount = s.slotCount ∧ t.free = s.free ∧ OnlyStore s t := by
  obtain ⟨g, -, -, rfl⟩ := memWrite_eq_ok.1 h
  exact ⟨List.length_set, rfl, .withStore s _ _⟩

theorem release_frame {s t : State} {id : Word} (h : release id s = .ok t) :
    t.slotCount = s.slotCount ∧ OnlyStore s t := by
  obtain ⟨-, -, rfl⟩ := release_eq_ok.1 h
  exact ⟨List.length_set, .withStore s _ _⟩

/-- A release unmaps one id, on top of the pool, and leaves every other segment. -/
theorem release_segment {s t : State} {id : Word} (h : release id s = .ok t) :
    t.segment? id = none ∧ t.free = id :: s.free ∧ ∀ q, q ≠ id → t.segment? q = s.segment? q := by
  obtain ⟨-, -, rfl⟩ := release_eq_ok.1 h
  exact ⟨s.segment?_setSlot_unmapped id, rfl, fun _ => s.segment?_setSlot_other _⟩

/-! ### Meanings on the registers the machine has -/

section
variable (a b c : Fin 8) (s : State)

theorem exec_sload_of_read {v : Word} (h : memRead s (s.reg b) (s.reg c) = .ok v) :
    exec (.sload a b c) s = .next (s.setReg a v) := by
  simp only [exec, execSload, regIx_fin, bind_ok, h, attempt_ok]

theorem exec_sload_of_fault {f : Raised} (h : memRead s (s.reg b) (s.reg c) = .error f) :
    exec (.sload a b c) s = .next (s.raiseFault f) := by
  simp only [exec, execSload, regIx_fin, bind_ok, h, bind_error, attempt_error]

theorem exec_sstore : exec (.sstore a b c) s = attempt s (memWrite s (s.reg a) (s.reg b) (s.reg c)) := by
  simp only [exec, execSstore, regIx_fin, bind_ok]

theorem exec_unmap : exec (.unmap c) s = attempt s (release (s.reg c) s) := by
  simp only [exec, execUnmap, regIx_fin, bind_ok]

theorem exec_sstore_of_fault {f : Raised} (h : memWrite s (s.reg a) (s.reg b) (s.reg c) = .error f) :
    exec (.sstore a b c) s = .next (s.raiseFault f) := by
  rw [exec_sstore, h, attempt_error]

theorem exec_unmap_of_fault {f : Raised} (h : release (s.reg c) s = .error f) :
    exec (.unmap c) s = .next (s.raiseFault f) := by
  rw [exec_unmap, h, attempt_error]

end

/-! ### The obligations -/

/-- Settles O33, by the three outcomes of the memory read: the word, an id with no segment, an offset beyond the
length. -/
theorem segmentLoadResult : Obligations.SegmentLoadResult := by
  refine ⟨fun w h => decode_of_opcode h (by omega), fun a b c s => ⟨fun g hg ho => ?_, fun hn => ?_, fun g hg ho => ?_⟩⟩
  · exact ⟨_, exec_sload_of_read a b c s (memRead_eq_ok.2 ⟨g, hg, ho, rfl⟩), State.reg_setReg_same s a _, .setReg s a _⟩
  · exact ⟨_, exec_sload_of_fault a b c s (memRead_eq_error.2 (.inl ⟨hn, rfl⟩)), s.raiseFault_entered _⟩
  · exact ⟨_, exec_sload_of_fault a b c s (memRead_eq_error.2 (.inr ⟨g, hg, ho, rfl⟩)), s.raiseFault_entered _⟩

/-- Settles O34, by the three outcomes of the memory write; in a canonical memory a written word reads back and every
other address reads as before. -/
theorem segmentStoreResult : Obligations.SegmentStoreResult := by
  refine ⟨fun w h => decode_of_opcode h (by omega), fun a b c s hs =>
    ⟨fun g hg ho => ?_, fun hn => ?_, fun g hg ho => ?_⟩⟩
  · have hw := memWrite_eq_ok.2 ⟨g, hg, ho, Eq.refl (s.setSlot (s.reg a) (.mapped (g.set (s.reg b) (s.reg c))))⟩
    obtain ⟨hcount, hfree, hrest⟩ := memWrite_frame hw
    exact ⟨_, by rw [exec_sstore, hw, attempt_ok], memRead_memWrite_same hs.memory hw,
      fun _ _ => memRead_memWrite_other hs.memory hw, memWrite_keeps_lengths hw, hcount, hfree, hrest⟩
  · exact ⟨_, exec_sstore_of_fault a b c s (memWrite_eq_error.2 (.inl ⟨hn, rfl⟩)), s.raiseFault_entered _⟩
  · exact ⟨_, exec_sstore_of_fault a b c s (memWrite_eq_error.2 (.inr ⟨g, hg, ho, rfl⟩)), s.raiseFault_entered _⟩

/-- Settles O36, by the three outcomes of the release: the id unmapped and pooled, id 0, an id with no segment. -/
theorem unmapSegmentResult : Obligations.UnmapSegmentResult := by
  refine ⟨fun w h => decode_of_opcode h (by omega), fun c s => ⟨fun h0 hm => ?_, fun h0 => ?_, fun h0 hn => ?_⟩⟩
  · have hr : release (s.reg c) s = .ok ((s.setSlot (s.reg c) .unmapped).setFree (s.reg c :: s.free)) :=
      release_eq_ok.2 ⟨h0, Option.ne_none_iff_exists'.1 hm, rfl⟩
    obtain ⟨hgone, hfree, hother⟩ := release_segment hr
    obtain ⟨hcount, hrest⟩ := release_frame hr
    exact ⟨_, by rw [exec_unmap, hr, attempt_ok], hgone, hfree, hcount,
      fun id hid => ⟨hother id hid, memRead_congr (hother id hid)⟩, hrest⟩
  · exact ⟨_, exec_unmap_of_fault c s (release_eq_error.2 (.inl ⟨h0, by rw [h0]⟩)), s.raiseFault_entered _⟩
  · exact ⟨_, exec_unmap_of_fault c s (release_eq_error.2 (.inr ⟨h0, hn, rfl⟩)), s.raiseFault_entered _⟩

end Sys2Proof.Machine
end

section
/-! Halt (42_control.md R105): the step of a word the decoder accepts, what Halt answers, and the end of the run. -/

namespace Sys2Proof.Machine

/-- An accepted word's instruction runs from the advanced state (R102). -/
theorem step_of_decode_ok {s : State} {w : Word} {i : Instr} (hs : s.status = .running) (hw : s.waiting = none)
    (hm : memRead s 0 s.pc = .ok w) (hd : decode w = .ok i) : step s = execute i (s.advance w) := by
  have hf : fetch s = .ok w := hm
  simp only [step, hs, runStep, hw, runInstruction, hf, hd]

theorem execute_of_next {i : Instr} {s t : State} (h : exec i s = .next t) : execute i s = .next t.finish := by
  rw [execute, h]

/-- The termination check where `pc` is the length of segment 0 (R104). -/
theorem State.finish_of_end {s : State} (hs : s.status = .running) (hw : s.waiting = none)
    (hpc : s.pc = s.programLength) : s.finish = { s with inFlight := none, status := .terminated } := by
  rw [s.finish_of_completed hs hw, if_pos hpc]

theorem decode_of_opcode_halt {w : Word} (h : opField w = 7) : decode w = .ok .halt :=
  decode_of_opcode h (by omega)

theorem exec_halt (s : State) : exec .halt s = .next (s.setPc s.programLength) := rfl

theorem step_of_halt {s : State} {w : Word} (hs : s.status = .running) (hw : s.waiting = none)
    (hm : memRead s 0 s.pc = .ok w) (hop : opField w = 7) :
    step s = .next { s with pc := s.programLength, inFlight := none, status := .terminated } := by
  rw [step_of_decode_ok hs hw hm (decode_of_opcode_halt hop), execute_of_next (exec_halt (s.advance w)),
    State.finish_of_end (s := (s.advance w).setPc (s.advance w).programLength) hs hw rfl]
  rfl

/-- Settles O37: Halt is one write of `pc`, and the termination check then finds `pc` at the length of segment 0. -/
theorem haltResult : Obligations.HaltResult :=
  ⟨fun _ => decode_of_opcode_halt, fun s =>
    ⟨_, exec_halt s, rfl, fun _ _ => rfl, .of_eq rfl rfl, ⟨rfl, rfl, rfl⟩, ⟨rfl, rfl, rfl, rfl⟩, rfl⟩,
    fun _ _ hs hm hop hw => ⟨_, step_of_halt hs hw hm hop, rfl, rfl, rfl⟩⟩

end Sys2Proof.Machine
end

section
/-! What every instruction leaves unchanged: one case split over its effect gives the frame that the whole-machine rules
are read from (10_state.md R18, R21, R28; 20_memory.md R37; 43_io.md R111). -/

namespace Sys2Proof.Machine

/-- What one instruction may change of the registers, the store, `pc` and the output log. -/
structure InstrFrame (i : Instr) (s t : State) : Prop where
  regs : ∀ r : Fin 8, (r : Nat) ∉ mayWrite i → t.reg r = s.reg r
  store : changesStore i = false → t.slots = s.slots ∧ t.free = s.free
  count : t.slotCount = s.slotCount ∨ t.slotCount = s.slotCount + 1
  pc : i ≠ .halt → (∀ b c, i ≠ .loadp b c) → t.pc = s.pc
  output : t.output = s.output ∨ ∃ c b, i = .out c ∧ t.output = s.output ++ [b]

/-- A change of nothing the frame speaks of. -/
theorem InstrFrame.of_eq {i : Instr} {s t : State} (hr : t.regs = s.regs) (hs : t.slots = s.slots)
    (hf : t.free = s.free) (hp : t.pc = s.pc) (ho : t.output = s.output) : InstrFrame i s t where
  regs r _ := by rw [State.reg, State.reg, hr]
  store _ := ⟨hs, hf⟩
  count := .inl (by rw [State.slotCount, State.slotCount, hs])
  pc _ _ := hp
  output := .inl ho

/-- One write of a register the instruction may write, on top of a frame. -/
theorem InstrFrame.setReg {i : Instr} {s t : State} {r : Fin 8} (h : InstrFrame i s t) (hr : (r : Nat) ∈ mayWrite i)
    (v : Word) : InstrFrame i s (t.setReg r v) where
  regs q hq := by
    have hne : q ≠ r := fun e => hq (e ▸ hr)
    rw [State.reg_setReg_other t r q v hne, h.regs q hq]
  store := h.store
  count := h.count
  pc := h.pc
  output := h.output

theorem InstrFrame.refl (i : Instr) (s : State) : InstrFrame i s s :=
  .of_eq rfl rfl rfl rfl rfl

theorem InstrFrame.polled (i : Instr) (s : State) : InstrFrame i s s.polled :=
  .of_eq rfl rfl rfl rfl rfl

/-- A change of the store alone, by an instruction that may change it. -/
theorem InstrFrame.withStore {i : Instr} (hi : changesStore i = true) (s : State) {slots : List Slot} (free : List Word)
    (hc : slots.length = s.slots.length ∨ slots.length = s.slots.length + 1) :
    InstrFrame i s { s with slots := slots, free := free } where
  regs _ _ := rfl
  store h := absurd (hi.symm.trans h) (by decide)
  count := hc
  pc _ _ := rfl
  output := .inl rfl

theorem Effect.frame {i : Instr} {s t : State} (h : Effect i s t) : InstrFrame i s t := by
  cases i with
  | cmov a b c =>
    obtain ⟨_, _, _, rfl, -, -, ⟨-, rfl⟩ | ⟨-, rfl⟩⟩ := h
    · exact .refl _ _
    · exact (InstrFrame.refl _ s).setReg (List.mem_singleton.2 rfl) _
  | sload a b c =>
    obtain ⟨_, _, _, rfl, -, -, _, -, rfl⟩ := h
    exact (InstrFrame.refl _ s).setReg (List.mem_singleton.2 rfl) _
  | add a b c | mul a b c | nand a b c =>
    obtain ⟨_, _, _, rfl, -, -, rfl⟩ := h
    exact (InstrFrame.refl _ s).setReg (List.mem_singleton.2 rfl) _
  | div a b c =>
    obtain ⟨_, _, _, rfl, -, -, -, rfl⟩ := h
    exact (InstrFrame.refl _ s).setReg (List.mem_singleton.2 rfl) _
  | loadi a literal =>
    obtain ⟨_, rfl, rfl⟩ := h
    exact (InstrFrame.refl _ s).setReg (List.mem_singleton.2 rfl) _
  | sstore a b c =>
    obtain ⟨_, _, _, -, -, -, h⟩ := h
    obtain ⟨_, -, -, rfl⟩ := memWrite_eq_ok.1 h
    exact .withStore rfl s _ (.inl List.length_set)
  | map b c =>
    obtain ⟨_, _, rfl, -, id, u, hu, rfl⟩ := h
    refine InstrFrame.setReg ?_ (List.mem_singleton.2 rfl) id
    obtain ⟨-, ⟨_, -, rfl⟩ | ⟨-, -, -, rfl⟩⟩ := allocate_eq_ok.1 hu
    · exact .withStore rfl s _ (.inl List.length_set)
    · exact .withStore rfl s _ (.inr (by rw [List.length_append, List.length_singleton]))
  | unmap c =>
    obtain ⟨_, -, h⟩ := h
    obtain ⟨-, -, rfl⟩ := release_eq_ok.1 h
    exact .withStore rfl s _ (.inl List.length_set)
  | inp c =>
    obtain ⟨_, rfl, ⟨_, -, rfl⟩ | ⟨-, rfl⟩ | ⟨-, rfl⟩⟩ := h
    · exact (InstrFrame.polled _ s).setReg (List.mem_singleton.2 rfl) _
    · exact (InstrFrame.polled _ s).setReg (List.mem_singleton.2 rfl) _
    · exact .of_eq rfl rfl rfl rfl rfl
  | halt =>
    cases h
    exact ⟨fun _ _ => rfl, fun _ => ⟨rfl, rfl⟩, .inl rfl, fun hne _ => absurd rfl hne, .inl rfl⟩
  | loadp b c =>
    obtain ⟨_, _, -, -, u, hu, rfl⟩ := h
    have hf : InstrFrame (.loadp b c) s u := by
      split at hu
      · cases hu; exact .refl _ _
      · obtain ⟨-, rfl⟩ | ⟨-, _, -, -, rfl⟩ := replaceProgram_eq_ok.1 hu
        · exact .refl _ _
        · exact .withStore rfl s _ (.inl List.length_set)
    exact ⟨hf.regs, hf.store, hf.count, fun _ hne => absurd rfl (hne b c), hf.output⟩
  | out c =>
    obtain ⟨_, -, -, rfl⟩ := h
    exact ⟨fun _ _ => rfl, fun _ => ⟨rfl, rfl⟩, .inl rfl, fun _ _ => rfl, .inr ⟨c, _, rfl, rfl⟩⟩

theorem exec_frame {i : Instr} {s t : State} (h : exec i s = .next t) : InstrFrame i s t := by
  rcases exec_next h with he | ⟨f, -, rfl⟩
  · exact he.frame
  · exact .of_eq rfl rfl rfl rfl rfl

/-- An instruction enters a fault, or leaves the run status, the fault record and the instruction in progress. -/
theorem exec_control {i : Instr} {s t : State} (h : exec i s = .next t) :
    SameControl s t ∨ ∃ f, CanRaise i f ∧ t = s.raiseFault f :=
  (exec_next h).imp_left Effect.sameControl

/-- From a state that is not Faulted, a Faulted one is reached by a fault of the instruction alone. -/
theorem exec_faulted {i : Instr} {s t : State} (hs : s.status ≠ .faulted) (h : exec i s = .next t)
    (ht : t.status = .faulted) : ∃ f, CanRaise i f ∧ t = s.raiseFault f := by
  rcases exec_control h with ⟨hc, -, -⟩ | hf
  · exact absurd (hc ▸ ht) hs
  · exact hf

/-- A well-formed instruction has no bad index to raise (60_exceptions.md R127). -/
theorem CanRaise.mayRaise {i : Instr} {f : Raised} (h : CanRaise i f) (hi : i.wellFormed = true) :
    mayRaise i f = true := by
  rcases h with ⟨k, hk, hlt, -⟩ | hm
  · have := (Instr.wellFormed_iff i).1 hi k hk
    omega
  · exact hm

/-! ### Obligations on one instruction -/

/-- Settles O50: a Faulted outcome is the starting state with the fault entered. -/
theorem faultsArePrecise : Obligations.FaultsArePrecise := by
  intro i s t hs h ht
  obtain ⟨f, -, rfl⟩ := exec_faulted hs h ht
  exact ⟨f, s.raiseFault_entered f⟩

/-- Settles O51: the fault entered is one the instruction can raise, and no index of it is bad. -/
theorem eachInstructionRaisesOnlyItsFaults : Obligations.EachInstructionRaisesOnlyItsFaults := by
  intro i s t hi hs h ht
  obtain ⟨f, hf, rfl⟩ := exec_faulted hs h ht
  exact ⟨_, s.raiseFault_fault f, hf.mayRaise hi⟩

/-- Settles O52, by the frame of the instruction. -/
theorem onlyTheDestinationRegisterChanges : Obligations.OnlyTheDestinationRegisterChanges :=
  fun _ _ _ h => (exec_frame h).regs

/-- Settles O53: the slots and the pool are the same, and the store is what they hold. -/
theorem onlyFourInstructionsChangeTheStore : Obligations.OnlyFourInstructionsChangeTheStore := by
  intro i s t hi h
  obtain ⟨hs, hf⟩ := (exec_frame h).store hi
  exact ⟨.of_eq hs hf, hs⟩

end Sys2Proof.Machine
end

section
/-! Input and its wait (43_io.md R113; 00_scope.md R14 (d)): what a poll leaves, and the step that makes it. -/

namespace Sys2Proof.Machine

/-- What an Input to `x[c]` leaves when its poll gets the reply: the result, or the wait. -/
def State.takeReply (s : State) (c : Fin 8) : ConsoleReply → State
  | .byte v => s.polled.setReg c (inputValue v)
  | .endOfStream => s.polled.setReg c endOfStreamValue
  | .noAnswer => s.polled.wait c

theorem exec_inp (c : Fin 8) (s : State) : exec (.inp c) s = .next (s.takeReply c s.consoleReply) := by
  simp only [exec, execInp, regIx_fin, bind_ok]
  cases s.consoleReply <;> rfl

section
variable (s : State) (c : Fin 8) (reply : ConsoleReply)

/-- Whatever the reply, a poll changes only the destination, the wait and the host's placed replies. -/
theorem State.takeReply_frame :
    (s.takeReply c reply).pc = s.pc ∧ (s.takeReply c reply).slots = s.slots ∧ (s.takeReply c reply).free = s.free ∧
      SameControl s (s.takeReply c reply) ∧ (s.takeReply c reply).imageSource = s.imageSource ∧
      (s.takeReply c reply).consoleIn = s.consoleIn.tail ∧
      (s.takeReply c reply).consolePolls = s.consolePolls + 1 ∧ (s.takeReply c reply).output = s.output := by
  cases reply <;> exact ⟨rfl, rfl, rfl, ⟨rfl, rfl, rfl⟩, rfl, rfl, rfl, rfl⟩

theorem State.takeReply_regs : SameRegsBut [c] s (s.takeReply c reply) := by
  intro q hq
  have hne : q ≠ c := mt List.mem_singleton.2 hq
  cases reply with
  | byte v => exact State.reg_setReg_other s.polled c q _ hne
  | endOfStream => exact State.reg_setReg_other s.polled c q _ hne
  | noAnswer => rfl

theorem State.takeReply_byte_toNat (v : Byte) : ((s.takeReply c (.byte v)).reg c).toNat = v.toNat := by
  rw [State.takeReply, State.reg_setReg_same, inputValue]
  exact BitVec.toNat_setWidth_of_le (by omega)

theorem State.takeReply_endOfStream_reg : (s.takeReply c .endOfStream).reg c = 0xFFFFFFFF#32 :=
  State.reg_setReg_same s.polled c endOfStreamValue

/-- An answer ends the wait. -/
theorem State.takeReply_waiting (h : reply ≠ .noAnswer) : (s.takeReply c reply).waiting = none := by
  cases reply with
  | noAnswer => exact absurd rfl h
  | byte v => rfl
  | endOfStream => rfl

end

theorem State.consoleReply_eq_headD (s : State) :
    s.consoleReply = s.consoleIn.headD (Config.consoleReply s.consolePolls) := by
  rw [State.consoleReply]
  cases s.consoleIn <;> rfl

theorem State.programLength_congr {s t : State} (h : t.slots = s.slots) : t.programLength = s.programLength := by
  rw [State.programLength, State.programLength, State.segment?, State.segment?, h]

/-- A poll of a waiting Input is a step. -/
theorem step_of_waiting {s : State} {c : Fin 8} (hs : s.status = .running) (hw : s.waiting = some c) :
    step s = .next (s.takeReply c s.consoleReply).finish := by
  simp only [step, hs, runStep, hw]
  exact execute_of_next (exec_inp c s)

/-! ### Obligations on Input -/

/-- Settles O40, by the reply the poll gets. -/
theorem inputResult : Obligations.InputResult := by
  refine ⟨fun w h => decode_of_opcode h (by omega), fun c s reply hr => ?_⟩
  rw [← State.consoleReply_eq_headD] at hr
  obtain ⟨hpc, hslots, hfree, hctl, himg, hin, hpolls, hout⟩ := s.takeReply_frame c reply
  refine ⟨s.takeReply c reply, hr ▸ exec_inp c s, hin, hpolls, himg, .of_eq hslots hfree, hctl, hout,
    s.takeReply_regs c reply, hpc, ?_, ?_, ?_⟩
  · rintro v rfl
    exact ⟨s.takeReply_byte_toNat c v, rfl⟩
  · rintro rfl
    exact ⟨s.takeReply_endOfStream_reg c, rfl⟩
  · rintro rfl
    exact ⟨rfl, rfl⟩

/-- Settles O58: the poll without an answer leaves the wait, so the end of the instruction is not reached. -/
theorem unansweredInputHoldsTheBlock : Obligations.UnansweredInputHoldsTheBlock := by
  refine ⟨fun s w c hs hw hm hd hr => ?_, fun s c hs hw hr => ?_⟩
  · have hstep : step s = .next ((s.advance w).polled.wait c) := by
      rw [step_of_decode_ok hs hw hm hd, execute_of_next (exec_inp c _), State.advance_consoleReply, hr]
      exact congrArg _ (State.finish_of_waiting _ (State.wait_waiting _ c))
    exact ⟨_, hstep, hs, rfl, rfl, rfl, rfl, fun _ _ => rfl, .of_eq rfl rfl, rfl, rfl, rfl⟩
  · have hstep : step s = .next (s.polled.wait c) := by
      rw [step_of_waiting hs hw, hr]
      exact congrArg _ (State.finish_of_waiting _ (State.wait_waiting _ c))
    exact ⟨_, hstep, hs, rfl, rfl, rfl, rfl, fun _ _ => rfl, .of_eq rfl rfl, rfl, rfl, rfl⟩

/-- Settles O59: the answer ends the wait, and the termination check is against the program length, which the poll does
not change. -/
theorem answerEndsTheWait : Obligations.AnswerEndsTheWait := by
  intro s c hs hw hr
  obtain ⟨hpc, hslots, hfree, ⟨hst, hft, -⟩, -, hin, hpolls, hout⟩ := s.takeReply_frame c s.consoleReply
  have hnw := s.takeReply_waiting c _ hr
  have hstep := step_of_waiting hs hw
  rw [State.finish_of_completed _ (hst.trans hs) hnw, hpc, State.programLength_congr hslots] at hstep
  refine ⟨_, hstep, hnw, rfl, rfl, hft, fun v hv => ?_, fun he => ?_, s.takeReply_regs c _, .of_eq hslots hfree, hout,
    hin, hpolls, rfl⟩
  · rw [hv]
    exact s.takeReply_byte_toNat c v
  · rw [he]
    exact s.takeReply_endOfStream_reg c

end Sys2Proof.Machine
end

section
/-! The pc controller (42_control.md R102 to R104): fetch, the termination check, and the invariant that every step
keeps. -/

namespace Sys2Proof.Machine

theorem State.finish_programLength (s : State) : s.finish.programLength = s.programLength :=
  State.programLength_congr s.finish_keeps.2.2.1

/-! ### The invariant -/

/-- A state that has just entered a fault meets the invariant when no Input waits. -/
theorem State.Inv.raiseFault {s : State} (h : s.StoreInv) (hw : s.waiting = none) (f : Raised) :
    (s.raiseFault f).Inv where
  store := h.of_eq rfl rfl
  record := ⟨fun _ => rfl, fun _ => rfl⟩
  idle _ := rfl
  waits c hc := by
    rw [State.raiseFault_waiting, hw] at hc
    cases hc
  ended hc := by cases hc

/-- A completed instruction ends in a state of the invariant: the termination check ties `pc` to Terminated. -/
theorem State.Inv.finish {u : State} (h : u.StoreInv) (hs : u.status = .running) (hf : u.fault = none)
    (hw : u.waiting = none) : u.finish.Inv := by
  rw [u.finish_of_completed hs hw]
  refine ⟨h.of_eq rfl rfl, ?_, fun _ => rfl, fun c hc => ?_, fun hc => ?_⟩
  · rw [hf]
    dsimp only
    split <;> simp
  · exact absurd (hw.symm.trans hc) (by simp)
  · by_cases hpc : u.pc = u.programLength
    · exact hpc
    · simp [hpc] at hc

/-- The Input in progress, as the invariant has it of a state in which one waits. -/
def State.InputInProgress (s : State) (c : Nat) : Prop :=
  ∃ w, s.inFlight = some ⟨s.pc - 1, some w⟩ ∧ memRead s 0 (s.pc - 1) = .ok w ∧ decode w = .ok (.inp c)

/-- A poll from a Running state keeps the invariant: an answer completes the Input, and without one it is still the
instruction in progress. -/
theorem State.Inv.poll {s : State} {c : Fin 8} (h : s.StoreInv) (hs : s.status = .running) (hf : s.fault = none)
    (hi : s.InputInProgress c) (reply : ConsoleReply) : (s.takeReply c reply).finish.Inv := by
  obtain ⟨-, hslots, hfree, ⟨hst, hft, -⟩, -⟩ := s.takeReply_frame c reply
  by_cases hr : reply = .noAnswer
  · subst hr
    rw [State.finish_of_waiting (s.takeReply c .noAnswer) (State.wait_waiting _ c)]
    refine ⟨h.of_eq rfl rfl, ?_, fun hw => ?_, fun d hd => ?_, fun ht => ?_⟩
    · rw [hst, hft, hs, hf]
      simp
    · cases hw
    · cases hd
      exact ⟨hs, hi⟩
    · rw [hst, hs] at ht
      cases ht
  · exact .finish (h.of_eq hslots hfree) (hst.trans hs) (hft.trans hf) (s.takeReply_waiting c reply hr)

/-- An instruction run from a Running state in which none waits, followed by the termination check, keeps the
invariant. -/
theorem State.Inv.execute {i : Instr} {s u : State} (h : s.StoreInv) (hs : s.status = .running) (hf : s.fault = none)
    (hw : s.waiting = none) (hi : ∀ c, i = .inp c → s.InputInProgress c) (hu : exec i s = .next u) : u.finish.Inv := by
  rcases exec_next hu with he | ⟨f, -, rfl⟩
  · by_cases hinp : ∃ c, i = .inp c
    · obtain ⟨c, rfl⟩ := hinp
      obtain ⟨rc, rfl, -⟩ := he
      rw [exec_inp] at hu
      cases hu
      exact .poll h hs hf (hi rc rfl) _
    · obtain ⟨hst, hft, -⟩ := he.sameControl
      have hwu := he.sameWaiting fun c e => hinp ⟨c, e⟩
      exact .finish (he.keepsStore h) (hst.trans hs) (hft.trans hf) (hwu.trans hw)
  · rw [State.finish_of_not_running (s.raiseFault f) (by simp)]
    exact .raiseFault h hw f

theorem State.Inv.no_fault {s : State} (h : s.Inv) (hs : s.status ≠ .faulted) : s.fault = none := by
  cases hf : s.fault with
  | none => rfl
  | some r => exact absurd (h.record.2 (by rw [hf]; rfl)) hs

theorem State.Inv.not_waiting {s : State} (h : s.Inv) (hs : s.status ≠ .running) : s.waiting = none := by
  cases hw : s.waiting with
  | none => rfl
  | some c => exact absurd (h.waits c hw).1 hs

/-- The image load keeps the invariant: it enters a fault, or ends Running with nothing in progress. -/
theorem State.Inv.load {s : State} (h : s.Inv) (hs : s.status = .loading) : s.load.Inv := by
  have hw := h.not_waiting (by rw [hs]; decide)
  rcases s.load_cases with hl | ⟨f, -, hl⟩
  · have hstore := loadImage_keeps h.store hl
    have hf := h.no_fault (by rw [hs]; decide)
    obtain ⟨_, _, -, -, -, -, -, ht⟩ := loadImage_eq_ok.1 hl
    rw [ht] at hstore ⊢
    refine ⟨hstore, ?_, fun _ => h.idle hw, fun c hc => absurd (hw.symm.trans hc) (by simp), fun hc => by cases hc⟩
    simp [hf]
  · rw [hl]
    exact .raiseFault h.store hw f

/-- Settles O49, by what a step can be: an image load, a poll of the waiting Input, a fetch fault, a DecodeError, or the
decoded instruction with the termination check. -/
theorem everyStepKeepsTheInvariant : Obligations.EveryStepKeepsTheInvariant := by
  intro s t h hst
  cases hs : s.status with
  | loading =>
    simp only [step, hs] at hst
    cases hst
    exact h.load hs
  | running =>
    have hf := h.no_fault (by rw [hs]; decide)
    rcases step_running hs hst with ⟨c, u, hw, hu, rfl⟩ | ⟨f, hw, -, rfl⟩ | ⟨w, f, hw, -, -, rfl⟩ |
      ⟨w, i, u, hw, hm, hd, hu, rfl⟩
    · rw [exec_inp] at hu
      cases hu
      exact .poll h.store hs hf (h.waits c hw).2 _
    · exact .raiseFault (s := s.fetching) (h.store.of_eq rfl rfl) hw f
    · exact .raiseFault (s := s.advance w) (h.store.of_eq rfl rfl) hw f
    · refine .execute (s := s.advance w) (h.store.of_eq rfl rfl) hs hf hw ?_ hu
      rintro c rfl
      have hpc : (s.advance w).pc - 1 = s.pc := BitVec.add_sub_cancel _ _
      exact ⟨w, by rw [hpc]; rfl, by rw [hpc]; exact hm, hd⟩
  | terminated => simp [step, hs] at hst
  | faulted => simp [step, hs] at hst

end Sys2Proof.Machine
end

section
/-! The insertion of a field into a carrier whose lower bits are clear (30_encoding.md R85), as a number: the encoder
and the word assembler both fill a word from its top field down. -/

namespace Sys2Proof.Machine.Codec

/-- A field below the bits of `high` does not carry out of the carrier. -/
theorem high_add_field_lt {m w lsb high v : Nat} (h : lsb + w ≤ m) (hword : high * 2 ^ (lsb + w) < 2 ^ m)
    (hv : v < 2 ^ w) : (high * 2 ^ w + v) * 2 ^ lsb < 2 ^ m := by
  obtain ⟨n, rfl⟩ := Nat.exists_eq_add_of_le h
  have hhigh : high < 2 ^ n := by
    rw [Nat.pow_add 2 (lsb + w) n, Nat.mul_comm] at hword
    exact Nat.lt_of_mul_lt_mul_left hword
  calc (high * 2 ^ w + v) * 2 ^ lsb
      < ((high + 1) * 2 ^ w) * 2 ^ lsb := Nat.mul_lt_mul_of_pos_right (by rw [Nat.add_mul]; omega) (Nat.two_pow_pos _)
    _ ≤ (2 ^ n * 2 ^ w) * 2 ^ lsb := Nat.mul_le_mul_right _ (Nat.mul_le_mul_right _ hhigh)
    _ = 2 ^ (lsb + w + n) := by ring

/-- Above clear bits a field adds its value at its weight. -/
theorem setUBody_toNat {w lsb : Nat} (h : lsb + w ≤ 64) {word v : Carrier} {high : Nat}
    (hword : word.toNat = high * 2 ^ (lsb + w)) (hv : v.toNat < 2 ^ w) :
    (setUBody word w lsb v).toNat = (high * 2 ^ w + v.toNat) * 2 ^ lsb := by
  have hlt : (high * 2 ^ w + v.toNat) * 2 ^ lsb < 2 ^ 64 := high_add_field_lt h (hword ▸ word.isLt) hv
  rw [← Nat.mod_eq_of_lt hlt, ← BitVec.toNat_ofNat]
  congr 1
  apply BitVec.eq_of_getLsbD_eq
  intro i hi
  rw [setUBody_getLsbD ⟨by omega, h⟩ word v hv i hi, BitVec.getLsbD_ofNat, decide_eq_true hi, Bool.true_and,
    BitVec.getLsbD, BitVec.getLsbD, hword, Nat.testBit_mul_two_pow, Nat.testBit_mul_two_pow, Nat.mul_comm high (2 ^ w),
    Nat.testBit_two_pow_mul_add _ hv]
  by_cases h1 : lsb ≤ i
  · by_cases h2 : i - lsb < w
    · have h3 : i < lsb + w := by omega
      simp [h1, h2, h3]
    · have h3 : ¬ i < lsb + w := by omega
      have h4 : lsb + w ≤ i := by omega
      simp [h1, h2, h3, h4, Nat.sub_sub]
  · have h2 : ¬ lsb + w ≤ i := by omega
    simp [h1, h2]

end Sys2Proof.Machine.Codec
end

section
/-! The encoder and the decoder through the field tuple (30_encoding.md R68, R70, R73, R89): an instruction is its
fields, the encoder writes their number, and the decoder reads them back from it. -/

namespace Sys2Proof

open Machine Machine.Codec

/-! ### The fields of an instruction -/

/-- The fields an instruction's word has, 0 in each the instruction does not use (R70). -/
def Instr.fields : Instr → Fields
  | .cmov a b c => .formS 0 a b c
  | .sload a b c => .formS 1 a b c
  | .sstore a b c => .formS 2 a b c
  | .add a b c => .formS 3 a b c
  | .mul a b c => .formS 4 a b c
  | .div a b c => .formS 5 a b c
  | .nand a b c => .formS 6 a b c
  | .halt => .formS 7 0 0 0
  | .map b c => .formS 8 0 b c
  | .unmap c => .formS 9 0 0 c
  | .out c => .formS 10 0 0 c
  | .inp c => .formS 11 0 0 c
  | .loadp b c => .formS 12 0 b c
  | .loadi a literal => .formI 13 a literal

/-- The fields of a legal word: the opcode is one of the 14, in its format, and each index has 3 bits. -/
def Fields.Fits : Fields → Prop
  | .formS op a b c => op < 13 ∧ a < 8 ∧ b < 8 ∧ c < 8
  | .formI op a _ => op = 13 ∧ a < 8

/-- The word the encoder makes of a field tuple (R89). -/
def Fields.encode : Fields → Except Raised Word
  | .formS op a b c => encodeS op a b c
  | .formI _ a literal => encodeI a literal

/-- The number of a field tuple: each field at its weight (R65, R66). -/
def Fields.value : Fields → Nat
  | .formS op a b c => op * 2 ^ 28 + a * 64 + b * 8 + c
  | .formI op a literal => op * 2 ^ 28 + a * 2 ^ 25 + literal.toNat

theorem Instr.fields_instr (i : Instr) : i.fields.instr = .ok i := by
  cases i <;> rfl

theorem Instr.encode_eq_fields (i : Instr) : encode i = i.fields.encode := by
  cases i <;> rfl

theorem Instr.wordValue_eq_fields (i : Instr) : wordValue i = i.fields.value := by
  cases i <;> simp [wordValue, Instr.fields, Fields.value]

theorem Instr.fields_fit {i : Instr} (h : i.wellFormed = true) : i.fields.Fits := by
  rw [Instr.wellFormed_iff] at h
  cases i with
  | halt => simp [Instr.fields, Fields.Fits]
  | _ => simpa [Instr.registers, Instr.fields, Fields.Fits] using h

/-! ### The encoder's word -/

/-- A number within the width is its own bit vector's number. -/
theorem toNat_ofNat_of_lt {m n : Nat} (h : n < 2 ^ m) : (BitVec.ofNat m n).toNat = n := by
  rw [BitVec.toNat_ofNat, Nat.mod_eq_of_lt h]

/-- The encoder's first insertion: the opcode, into the empty word. -/
theorem setUBody_opcode_toNat {op : Nat} (h : op < 16) :
    (setUBody 0 4 28 (BitVec.ofNat 64 op)).toNat = op * 2 ^ 28 := by
  have hv := toNat_ofNat_of_lt (m := 64) (n := op) (by omega)
  rw [setUBody_toNat (high := 0) (by omega) rfl (by omega), hv]
  omega

theorem encodeS_eq {op a b c : Nat} (hop : op < 16) (ha : a < 8) (hb : b < 8) (hc : c < 8) :
    encodeS op a b c = .ok (BitVec.ofNat 32 (op * 2 ^ 28 + a * 64 + b * 8 + c)) := by
  have va := toNat_ofNat_of_lt (m := 64) (n := a) (by omega)
  have vb := toNat_ofNat_of_lt (m := 64) (n := b) (by omega)
  have vc := toNat_ofNat_of_lt (m := 64) (n := c) (by omega)
  have h1 := setUBody_toNat (w := 3) (lsb := 6) (v := BitVec.ofNat 64 a) (high := op * 2 ^ 19) (by omega)
    (by rw [setUBody_opcode_toNat hop]; omega) (by omega)
  have h2 := setUBody_toNat (w := 3) (lsb := 3) (v := BitVec.ofNat 64 b) (high := op * 2 ^ 22 + a) (by omega)
    (by rw [h1, va]; omega) (by omega)
  have h3 := setUBody_toNat (w := 3) (lsb := 0) (v := BitVec.ofNat 64 c) (high := op * 2 ^ 25 + a * 8 + b) (by omega)
    (by rw [h2, vb]; omega) (by omega)
  rw [encodeS_ok hop ha hb hc]
  refine congrArg _ (BitVec.eq_of_toNat_eq ?_)
  rw [BitVec.truncate_eq_setWidth, BitVec.toNat_setWidth, BitVec.toNat_ofNat, h3, vc]
  congr 1
  omega

theorem encodeI_eq {a : Nat} (ha : a < 8) (literal : BitVec 25) :
    encodeI a literal = .ok (BitVec.ofNat 32 (13 * 2 ^ 28 + a * 2 ^ 25 + literal.toNat)) := by
  have hl := literal.isLt
  have va := toNat_ofNat_of_lt (m := 64) (n := a) (by omega)
  have vl := toNat_ofNat_of_lt (m := 64) (n := literal.toNat) (by omega)
  have h1 := setUBody_toNat (w := 3) (lsb := 25) (v := BitVec.ofNat 64 a) (high := 13) (by omega)
    (setUBody_opcode_toNat (op := 13) (by omega)) (by omega)
  have h2 := setUBody_toNat (w := 25) (lsb := 0) (v := BitVec.ofNat 64 literal.toNat) (high := 13 * 8 + a) (by omega)
    (by rw [h1, va]; omega) (by omega)
  rw [encodeI_ok ha]
  refine congrArg _ (BitVec.eq_of_toNat_eq ?_)
  rw [BitVec.truncate_eq_setWidth, BitVec.toNat_setWidth, BitVec.toNat_ofNat, h2, vl]
  congr 1
  omega

theorem Fields.encode_of_fits {f : Fields} (h : f.Fits) : f.encode = .ok (BitVec.ofNat 32 f.value) := by
  cases f with
  | formS op a b c =>
    obtain ⟨hop, ha, hb, hc⟩ := h
    exact encodeS_eq (by omega) ha hb hc
  | formI op a literal =>
    obtain ⟨rfl, ha⟩ := h
    exact encodeI_eq ha literal

theorem Fields.value_lt {f : Fields} (h : f.Fits) : f.value < 2 ^ 32 := by
  cases f with
  | formS op a b c =>
    obtain ⟨hop, ha, hb, hc⟩ := h
    rw [Fields.value]
    omega
  | formI op a literal =>
    obtain ⟨rfl, ha⟩ := h
    have := literal.isLt
    rw [Fields.value]
    omega

/-! ### Reading the word back -/

/-- A field of a word given by its number. -/
theorem extractLsb'_ofNat_toNat {v : Nat} (hv : v < 2 ^ 32) (lsb n : Nat) :
    ((BitVec.ofNat 32 v).extractLsb' lsb n).toNat = v / 2 ^ lsb % 2 ^ n := by
  rw [BitVec.extractLsb'_toNat, toNat_ofNat_of_lt hv, Nat.shiftRight_eq_div_pow]

/-- The decoder extracts from the number of a field tuple the fields it was made of. -/
theorem Fields.decodeFields_value {f : Fields} (h : f.Fits) : decodeFields (BitVec.ofNat 32 f.value) = .ok f := by
  have hlt := Fields.value_lt h
  rw [everyWordDecodesToItsFields]
  cases f with
  | formS op a b c =>
    obtain ⟨hop, ha, hb, hc⟩ := h
    rw [Fields.value] at hlt ⊢
    simp only [opField, aField, bField, cField, extractLsb'_ofNat_toNat hlt]
    have h1 : (op * 2 ^ 28 + a * 64 + b * 8 + c) / 2 ^ 28 % 2 ^ 4 = op := by omega
    have h2 : (op * 2 ^ 28 + a * 64 + b * 8 + c) / 2 ^ 6 % 2 ^ 3 = a := by omega
    have h3 : (op * 2 ^ 28 + a * 64 + b * 8 + c) / 2 ^ 3 % 2 ^ 3 = b := by omega
    have h4 : (op * 2 ^ 28 + a * 64 + b * 8 + c) / 2 ^ 0 % 2 ^ 3 = c := by omega
    rw [h1, h2, h3, h4, if_neg (by omega)]
  | formI op a literal =>
    obtain ⟨rfl, ha⟩ := h
    have hl := literal.isLt
    rw [Fields.value] at hlt ⊢
    have h3 : literalField (BitVec.ofNat 32 (13 * 2 ^ 28 + a * 2 ^ 25 + literal.toNat)) = literal := by
      apply BitVec.eq_of_toNat_eq
      rw [literalField, extractLsb'_ofNat_toNat hlt]
      omega
    rw [h3]
    simp only [opField, immediateAField, extractLsb'_ofNat_toNat hlt]
    have h1 : (13 * 2 ^ 28 + a * 2 ^ 25 + literal.toNat) / 2 ^ 28 % 2 ^ 4 = 13 := by omega
    have h2 : (13 * 2 ^ 28 + a * 2 ^ 25 + literal.toNat) / 2 ^ 25 % 2 ^ 3 = a := by omega
    rw [h1, h2, if_pos rfl]

/-! ### The obligations on the encoder -/

/-- Settles O5: the encoder writes the fields' number, which is the instruction's. -/
theorem encodedWordHasTheStatedValue : Obligations.EncodedWordHasTheStatedValue := by
  intro i h
  have hf := Instr.fields_fit h
  rw [Instr.wordValue_eq_fields, Instr.encode_eq_fields]
  exact ⟨Fields.encode_of_fits hf, Fields.value_lt hf⟩

/-- Settles O1: the decoder reads the fields back from their number, and dispatch selects the instruction they are of.
-/
theorem decodeOfEncodeIsIdentity : Obligations.DecodeOfEncodeIsIdentity := by
  intro i h
  have hf := Instr.fields_fit h
  refine ⟨_, (Instr.encode_eq_fields i).trans (Fields.encode_of_fits hf), ?_⟩
  rw [decode, Fields.decodeFields_value hf, bind_ok, Instr.fields_instr]

end Sys2Proof
end

section
/-! The opcode map is total, the bits an opcode does not read have no effect, and the encoder truncates no index
(30_encoding.md R71, R73 to R76, R85). -/

namespace Sys2Proof

open Machine Machine.Codec

/-! ### The opcode map -/

theorem aField_lt (w : Word) : aField w < 8 := (w.extractLsb' 6 3).isLt

theorem bField_lt (w : Word) : bField w < 8 := (w.extractLsb' 3 3).isLt

theorem cField_lt (w : Word) : cField w < 8 := (w.extractLsb' 0 3).isLt

theorem immediateAField_lt (w : Word) : immediateAField w < 8 := (w.extractLsb' 25 3).isLt

/-- Each Format S opcode below 13 selects the instruction of that opcode, on the fields it uses. -/
theorem Fields.instr_of_legal {op a b c : Nat} (hop : op < 13) (ha : a < 8) (hb : b < 8) (hc : c < 8) :
    ∃ i, (Fields.formS op a b c).instr = .ok i ∧ i.opcode = op ∧ i.wellFormed = true := by
  interval_cases op <;> exact ⟨_, rfl, rfl, by simp [Instr.wellFormed_iff, Instr.registers, ha, hb, hc]⟩

/-- Settles O3: an opcode below 13 selects its Format S instruction, 13 the Format I one, and 14 and 15 none. -/
theorem opcodeAloneSelectsTheInstruction : Obligations.OpcodeAloneSelectsTheInstruction := by
  refine fun w => ⟨fun hop => ?_, decode_of_illegal⟩
  by_cases h : opField w = 13
  · exact ⟨_, decode_of_formatI h, h.symm, by simp [Instr.wellFormed_iff, Instr.registers, immediateAField_lt w]⟩
  · rw [decode_of_formatS h]
    exact Fields.instr_of_legal (by omega) (aField_lt w) (bField_lt w) (cField_lt w)

/-! ### The bits an opcode reads -/

/-- Words that agree under a mask agree on each field the mask covers. -/
theorem extractLsb'_eq_of_mask {w w' m : Word} (h : w &&& m = w' &&& m) {lsb n : Nat}
    (hm : m.extractLsb' lsb n = BitVec.allOnes n) : w.extractLsb' lsb n = w'.extractLsb' lsb n := by
  have he := congrArg (BitVec.extractLsb' lsb n) h
  rwa [BitVec.extractLsb'_and, BitVec.extractLsb'_and, hm, BitVec.and_allOnes, BitVec.and_allOnes] at he

/-- Every opcode's mask covers the opcode. -/
theorem usedBits_opcode (op : Nat) : (usedBits op).extractLsb' 28 4 = BitVec.allOnes 4 := by
  unfold usedBits
  split <;> decide

theorem opField_eq_of_usedBits {w w' : Word} {op : Nat} (h : w &&& usedBits op = w' &&& usedBits op) :
    opField w = opField w' :=
  congrArg BitVec.toNat (extractLsb'_eq_of_mask h (usedBits_opcode op))

section
variable {w w' m : Word} (h : w &&& m = w' &&& m)
include h

theorem aField_eq_of_mask (hm : m.extractLsb' 6 3 = BitVec.allOnes 3) : aField w = aField w' :=
  congrArg BitVec.toNat (extractLsb'_eq_of_mask h hm)

theorem bField_eq_of_mask (hm : m.extractLsb' 3 3 = BitVec.allOnes 3) : bField w = bField w' :=
  congrArg BitVec.toNat (extractLsb'_eq_of_mask h hm)

theorem cField_eq_of_mask (hm : m.extractLsb' 0 3 = BitVec.allOnes 3) : cField w = cField w' :=
  congrArg BitVec.toNat (extractLsb'_eq_of_mask h hm)

end

/-- Dispatch on an opcode depends on the fields the opcode's mask covers, and on no other. -/
theorem Fields.instr_eq_of_usedBits {w w' : Word} {op : Nat} (hop : op < 13)
    (h : w &&& usedBits op = w' &&& usedBits op) :
    (Fields.formS op (aField w) (bField w) (cField w)).instr =
      (Fields.formS op (aField w') (bField w') (cField w')).instr := by
  have three (hm : usedBits op = 0xF00001FF#32) :
      aField w = aField w' ∧ bField w = bField w' ∧ cField w = cField w' := by
    rw [hm] at h
    exact ⟨aField_eq_of_mask h (by decide), bField_eq_of_mask h (by decide), cField_eq_of_mask h (by decide)⟩
  have two (hm : usedBits op = 0xF000003F#32) : bField w = bField w' ∧ cField w = cField w' := by
    rw [hm] at h
    exact ⟨bField_eq_of_mask h (by decide), cField_eq_of_mask h (by decide)⟩
  have one (hm : usedBits op = 0xF0000007#32) : cField w = cField w' := by
    rw [hm] at h
    exact cField_eq_of_mask h (by decide)
  match op with
  | 0 | 1 | 2 | 3 | 4 | 5 | 6 =>
    obtain ⟨ha, hb, hc⟩ := three rfl
    rw [ha, hb, hc]
  | 7 => rfl
  | 8 | 12 =>
    obtain ⟨hb, hc⟩ := two rfl
    simp only [Fields.instr, hb, hc]
  | 9 | 10 | 11 =>
    simp only [Fields.instr, one rfl]

/-- Settles O4, by the format and the opcode both words have. -/
theorem unreadBitsHaveNoEffect : Obligations.UnreadBitsHaveNoEffect := by
  intro w w' h
  have hop := opField_eq_of_usedBits h
  by_cases h14 : 14 ≤ opField w
  · rw [decode_of_illegal h14, decode_of_illegal (hop ▸ h14), hop]
  by_cases h13 : opField w = 13
  · have hall : usedBits 13 = BitVec.allOnes 32 := by decide
    rw [h13, hall, BitVec.and_allOnes, BitVec.and_allOnes] at h
    rw [h]
  · rw [decode_of_formatS h13, decode_of_opcode hop.symm h13]
    exact Fields.instr_eq_of_usedBits (by omega) h

/-! ### The encoder's refusal -/

theorem insertField_cases {w lsb v : Nat} (h : w ≤ 64 ∧ lsb + w ≤ 64) (word : Carrier) :
    (v < 2 ^ w ∧ ∃ word', insertField word w lsb v = .ok word') ∨
      (2 ^ w ≤ v ∧ insertField word w lsb v = .error (.overflow (v : Int) w)) := by
  rcases Nat.lt_or_ge v (2 ^ w) with hv | hv
  · exact .inl ⟨hv, _, insertField_ok h word hv⟩
  · exact .inr ⟨hv, insertField_error h word hv⟩

/-- The encoder reports the first index that does not fit, in the order `a`, `b`, `c`. -/
theorem encodeS_refuses {op a b c : Nat} (hop : op < 16) (h : ∃ r ∈ [a, b, c], 7 < r) :
    ∃ r ∈ [a, b, c], 7 < r ∧ encodeS op a b c = .error (.overflow (r : Int) 3) := by
  rw [encodeS, insertField_ok (by omega) _ (by omega), bind_ok]
  rcases insertField_cases (v := a) (lsb := 6) (w := 3) (by omega) _ with ⟨ha, _, ea⟩ | ⟨ha, ea⟩
  swap
  · exact ⟨a, by simp, by omega, by rw [ea, bind_error]⟩
  rw [ea, bind_ok]
  rcases insertField_cases (v := b) (lsb := 3) (w := 3) (by omega) _ with ⟨hb, _, eb⟩ | ⟨hb, eb⟩
  swap
  · exact ⟨b, by simp, by omega, by rw [eb, bind_error]⟩
  rw [eb, bind_ok]
  rcases insertField_cases (v := c) (lsb := 0) (w := 3) (by omega) _ with ⟨hc, _, ec⟩ | ⟨hc, ec⟩
  swap
  · exact ⟨c, by simp, by omega, by rw [ec, bind_error]⟩
  obtain ⟨r, hr, h7⟩ := h
  simp only [List.mem_cons, List.not_mem_nil, or_false] at hr
  omega

theorem encodeI_refuses {a : Nat} (h : 7 < a) (literal : BitVec 25) :
    encodeI a literal = .error (.overflow (a : Int) 3) := by
  rw [encodeI, insertField_ok (by omega) _ (by omega), bind_ok, insertField_error (by omega) _ (by omega), bind_error]

/-- The indices a field tuple has, in the order the encoder inserts them. -/
def Fields.registers : Fields → List Nat
  | .formS _ a b c => [a, b, c]
  | .formI _ a _ => [a]

/-- The opcode of a field tuple. -/
def Fields.opcode : Fields → Nat
  | .formS op _ _ _ => op
  | .formI op _ _ => op

theorem Fields.encode_refuses {f : Fields} (hop : f.opcode < 16) (h : ∃ r ∈ f.registers, 7 < r) :
    ∃ r ∈ f.registers, 7 < r ∧ f.encode = .error (.overflow (r : Int) 3) := by
  cases f with
  | formS op a b c => exact encodeS_refuses hop h
  | formI op a literal =>
    obtain ⟨r, hr, h7⟩ := h
    obtain rfl := List.mem_singleton.1 hr
    exact ⟨r, hr, h7, encodeI_refuses h7 literal⟩

theorem Instr.fields_opcode_lt (i : Instr) : i.fields.opcode < 16 := by
  cases i <;> simp [Instr.fields, Fields.opcode]

/-- The fields an instruction does not use are 0, so its wide indices are those of its fields. -/
theorem Instr.mem_fields_registers {i : Instr} {r : Nat} (h : 7 < r) : r ∈ i.fields.registers ↔ r ∈ i.registers := by
  have h0 : r ≠ 0 := by omega
  cases i <;> simp [Instr.fields, Fields.registers, Instr.registers, h0]

theorem Instr.exists_wide_register {i : Instr} (h : i.wellFormed = false) : ∃ r ∈ i.registers, 7 < r := by
  rw [Bool.eq_false_iff, Ne, Instr.wellFormed_iff] at h
  push Not at h
  exact h

/-- Settles O6: the instruction's wide indices are its fields', and the encoder reports the first of them. -/
theorem encoderRefusesWideRegisterIndex : Obligations.EncoderRefusesWideRegisterIndex := by
  intro i h
  obtain ⟨r, hr, h7⟩ := Instr.exists_wide_register h
  obtain ⟨q, hq, hq7, he⟩ := Fields.encode_refuses i.fields_opcode_lt ⟨r, (Instr.mem_fields_registers h7).2 hr, h7⟩
  exact ⟨q, (Instr.mem_fields_registers hq7).1 hq, hq7, (Instr.encode_eq_fields i).trans he⟩

/-- Settles O7, by running the decoder on each of the ten words. -/
theorem sampleWordsDecode : Obligations.SampleWordsDecode := by
  unfold Obligations.SampleWordsDecode
  decide

end Sys2Proof
end

section
/-! The inserters of the codec and its laws (30_encoding.md R80 to R82, R85, R86, R88). -/

namespace Sys2Proof.Machine.Codec

/-! ### The range tests -/

/-- The signed range of `w` bits (R82); only 0 fits width 0 (D11). -/
def InSignedRange (v : Carrier) (w : Nat) : Prop :=
  (w = 0 ∧ v = 0) ∨ (0 < w ∧ -(2 : Int) ^ (w - 1) ≤ v.toInt ∧ v.toInt < (2 : Int) ^ (w - 1))

/-- Settles O57, by what each range test decides inside the domain. -/
theorem fitsDecidesTheRange : Obligations.FitsDecidesTheRange := by
  intro v w h
  refine ⟨?_, ?_⟩
  · rw [fitsU, guarded_in ⟨h, by omega⟩]
    exact congrArg _ (Bool.eq_iff_iff.2 ((fitsUBody_iff h).trans decide_eq_true_iff.symm))
  · rw [fitsS, guarded_in ⟨h, by omega⟩]
    exact congrArg _ (Bool.eq_iff_iff.2 ((fitsSBody_iff h).trans decide_eq_true_iff.symm))

/-- Settles O14: each function checks its domain before anything else. -/
theorem codecRefusesArgumentsOutsideItsDomain : Obligations.CodecRefusesArgumentsOutsideItsDomain := by
  refine fun word v w lsb => ⟨fun h => ?_, fun h => ?_⟩
  · have hout : ¬(w ≤ 64 ∧ lsb + w ≤ 64) := by omega
    exact ⟨guarded_out hout _, guarded_out hout _, guarded_out hout _, guarded_out hout _⟩
  · have hout : ¬(w ≤ 64 ∧ 0 + w ≤ 64) := by omega
    exact ⟨guarded_out hout _, guarded_out hout _⟩

/-! ### SetU and SetS inside the domain -/

section
variable {w lsb : Nat} (h : w ≤ 64 ∧ lsb + w ≤ 64) (word : Carrier) {v : Carrier}
include h

theorem setU_of_fits (hv : v.toNat < 2 ^ w) : setU word w lsb v = .ok (setUBody word w lsb v) := by
  rw [setU, guarded_in h, if_pos ((fitsUBody_iff h.1).2 hv)]

theorem setU_of_not_fits (hv : 2 ^ w ≤ v.toNat) : setU word w lsb v = .error (.overflow (v.toNat : Int) w) := by
  rw [setU, guarded_in h, if_neg (mt (fitsUBody_iff h.1).1 (by omega))]

/-- SetU answers a word exactly for a value that fits. -/
theorem setU_eq_ok {word' : Carrier} :
    setU word w lsb v = .ok word' ↔ v.toNat < 2 ^ w ∧ setUBody word w lsb v = word' := by
  rcases Nat.lt_or_ge v.toNat (2 ^ w) with hv | hv
  · rw [setU_of_fits h word hv, Except.ok.injEq, and_iff_right hv]
  · rw [setU_of_not_fits h word hv]
    exact ⟨fun e => (by cases e), fun e => absurd e.1 (by omega)⟩

/-- SetS stores the low `w` bits of a value in range; at width 0 there is no bit to store. -/
theorem setS_of_fits (hv : InSignedRange v w) : setS word w lsb v = .ok (setUBody word w lsb (v &&& mask w)) := by
  rw [setS, guarded_in h, if_pos ((fitsSBody_iff h.1).2 hv)]
  by_cases hw : w = 0
  · rw [if_pos hw, setUBody, if_pos hw]
  · rw [if_neg hw, setU_of_fits h word (and_mask_fits h.1 v)]

theorem setS_of_not_fits (hv : ¬InSignedRange v w) : setS word w lsb v = .error (.overflow v.toInt w) := by
  rw [setS, guarded_in h, if_neg (mt (fitsSBody_iff h.1).1 hv)]

/-- SetS answers a word exactly for a value in range. -/
theorem setS_eq_ok {word' : Carrier} :
    setS word w lsb v = .ok word' ↔ InSignedRange v w ∧ setUBody word w lsb (v &&& mask w) = word' := by
  by_cases hv : InSignedRange v w
  · rw [setS_of_fits h word hv, Except.ok.injEq, and_iff_right hv]
  · rw [setS_of_not_fits h word hv]
    exact ⟨fun e => (by cases e), fun e => absurd e.1 hv⟩

/-- The bits SetS leaves: the value's inside the field. -/
theorem setUBody_low_getLsbD (v : Carrier) (i : Nat) (hi : i < 64) :
    (setUBody word w lsb (v &&& mask w)).getLsbD i =
      if lsb ≤ i ∧ i < lsb + w then v.getLsbD (i - lsb) else word.getLsbD i := by
  rw [setUBody_getLsbD h word _ (and_mask_fits h.1 v) i hi, and_mask_getLsbD h.1]
  by_cases hf : lsb ≤ i ∧ i < lsb + w
  · have : i - lsb < w := by omega
    simp [hf, this]
  · rw [if_neg hf, if_neg hf]

/-! ### Reading a field after a write -/

/-- The field written is read back. -/
theorem getUBody_setUBody_same (hv : v.toNat < 2 ^ w) : getUBody (setUBody word w lsb v) w lsb = v := by
  apply BitVec.eq_of_getLsbD_eq
  intro i hi
  rw [getUBody_getLsbD h.1]
  by_cases hiw : i < w
  · rw [setUBody_getLsbD h word v hv (lsb + i) (by omega), if_pos (by omega)]
    simp [hiw]
  · simp [hiw, getLsbD_of_fits hv (Nat.le_of_not_lt hiw)]

/-- Writing what the field holds changes no bit. -/
theorem setUBody_getUBody : setUBody word w lsb (getUBody word w lsb) = word := by
  apply BitVec.eq_of_getLsbD_eq
  intro i hi
  rw [setUBody_getLsbD h word _ (getUBody_fits h.1 word lsb) i hi]
  by_cases hf : lsb ≤ i ∧ i < lsb + w
  · have h1 : i - lsb < w := by omega
    have h2 : lsb + (i - lsb) = i := by omega
    rw [if_pos hf, getUBody_getLsbD h.1, h2]
    simp [h1]
  · rw [if_neg hf]

/-- A disjoint field reads as before. -/
theorem getUBody_setUBody_disjoint (hv : v.toNat < 2 ^ w) {w2 lsb2 : Nat} (h2 : w2 ≤ 64 ∧ lsb2 + w2 ≤ 64)
    (hd : lsb + w ≤ lsb2 ∨ lsb2 + w2 ≤ lsb) : getUBody (setUBody word w lsb v) w2 lsb2 = getUBody word w2 lsb2 := by
  apply BitVec.eq_of_getLsbD_eq
  intro i hi
  rw [getUBody_getLsbD h2.1, getUBody_getLsbD h2.1]
  by_cases hiw : i < w2
  · rw [setUBody_getLsbD h word v hv (lsb2 + i) (by omega), if_neg (by omega)]
  · simp [hiw]

/-- The low `w` bits of a value in the signed range, extended, are the value: the field is read back signed. -/
theorem getSBody_setUBody_same (hv : InSignedRange v w) : getSBody (setUBody word w lsb (v &&& mask w)) w lsb = v := by
  rcases hv with ⟨rfl, rfl⟩ | ⟨hw, hlo, hhi⟩
  · exact getSBody_width_zero _ lsb
  have hfield : (setUBody word w lsb (v &&& mask w)).extractLsb' lsb w = v.setWidth w := by
    apply BitVec.eq_of_getLsbD_eq
    intro i hi
    rw [BitVec.getLsbD_extractLsb', setUBody_low_getLsbD h word v (lsb + i) (by omega), if_pos (by omega)]
    simp [hi]
  rw [getSBody_eq_signExtend h.1 hw, hfield]
  apply BitVec.eq_of_toInt_eq
  rw [BitVec.toInt_signExtend_of_le h.1, ← BitVec.signExtend_eq_setWidth_of_le v h.1,
    BitVec.toInt_signExtend_eq_toInt_bmod_of_le v h.1]
  obtain ⟨k, rfl⟩ := Nat.exists_eq_add_of_le' hw
  rw [Nat.add_sub_cancel] at hlo hhi
  apply Int.bmod_eq_of_le_mul_two <;> push_cast <;> rw [pow_succ] <;> omega

end

/-! ### The obligations -/

/-- Settles O10: inside the domain SetU is its body on a value that fits, and the overflow on any other. -/
theorem setUReplacesOnlyTheField : Obligations.SetUReplacesOnlyTheField := fun word _ _ v hw hd =>
  ⟨fun hv => ⟨_, setU_of_fits ⟨hw, hd⟩ word hv, setUBody_getLsbD ⟨hw, hd⟩ word v hv⟩,
    setU_of_not_fits ⟨hw, hd⟩ word⟩

/-- Settles O11: inside the domain SetS stores the low bits of a value in range, and overflows on any other. -/
theorem setSStoresTwosComplement : Obligations.SetSStoresTwosComplement := fun word _ _ v hw hd =>
  ⟨fun hv => ⟨_, setS_of_fits ⟨hw, hd⟩ word hv, setUBody_low_getLsbD ⟨hw, hd⟩ word v⟩,
    setS_of_not_fits ⟨hw, hd⟩ word⟩

/-- Settles O12: what SetU and SetS store is read back, and storing what GetU reads changes nothing. -/
theorem codecFieldsRoundTrip : Obligations.CodecFieldsRoundTrip := by
  intro word word' w lsb v hw hd
  have h : w ≤ 64 ∧ lsb + w ≤ 64 := ⟨hw, hd⟩
  refine ⟨fun hset => ?_, fun hset => ?_, fun hget => ?_⟩
  · obtain ⟨hv, rfl⟩ := (setU_eq_ok h word).1 hset
    rw [getU_in h, getUBody_setUBody_same h word hv]
  · obtain ⟨hv, rfl⟩ := (setS_eq_ok h word).1 hset
    rw [getS_in h, getSBody_setUBody_same h word hv]
  · rw [getU_in h] at hget
    cases hget
    rw [setU_of_fits h word (getUBody_fits hw word lsb), setUBody_getUBody h word]

/-- Settles O13: no bit of the one field is a bit of the other. -/
theorem disjointFieldsAreIndependent : Obligations.DisjointFieldsAreIndependent := by
  intro word word' w1 lsb1 w2 lsb2 v hw1 hd1 hw2 hd2 hdis hset
  obtain ⟨hv, rfl⟩ := (setU_eq_ok ⟨hw1, hd1⟩ word).1 hset
  rw [getU_in ⟨hw2, hd2⟩, getU_in ⟨hw2, hd2⟩, getUBody_setUBody_disjoint ⟨hw1, hd1⟩ word hv ⟨hw2, hd2⟩ hdis]

end Sys2Proof.Machine.Codec
end

section
/-! The segment store's operations (20_memory.md section 5): the canonical form, and what a state reads after an
allocation, a release and a program replacement. -/

namespace Sys2Proof.Machine

/-! ### The canonical form -/

/-- What a canonical list holds is what it reads as. -/
theorem Cells.mem_iff_get {cells : List (Nat × Word)} (hr : Cells.Rising cells) (hn : ∀ p ∈ cells, p.2 ≠ 0)
    (p : Nat × Word) : p ∈ cells ↔ p.2 ≠ 0 ∧ Cells.get cells p.1 = p.2 := by
  refine ⟨fun hp => ⟨hn p hp, Cells.get_of_mem hr hp⟩, fun ⟨h0, hg⟩ => ?_⟩
  by_contra hp
  refine h0 (hg ▸ Cells.get_of_forall_ne fun q hq hk => hp ?_)
  have hq2 : q.2 = p.2 := by rw [← Cells.get_of_mem hr hq, hk, hg]
  rwa [← Prod.ext hk hq2]

/-- Canonical lists that read alike are the same list: they hold the same pairs in the same order. -/
theorem Cells.ext {cs ds : List (Nat × Word)} (hc : Cells.Rising cs) (hd : Cells.Rising ds)
    (hcn : ∀ p ∈ cs, p.2 ≠ 0) (hdn : ∀ p ∈ ds, p.2 ≠ 0) (h : ∀ o, Cells.get cs o = Cells.get ds o) : cs = ds := by
  have hirr : Std.Irrefl fun p q : Nat × Word => p.1 < q.1 := ⟨fun p => Nat.lt_irrefl p.1⟩
  have hanti : Std.Antisymm fun p q : Nat × Word => p.1 < q.1 := ⟨fun _ _ h1 h2 => absurd h1 (Nat.lt_asymm h2)⟩
  refine List.Pairwise.eq_of_mem_iff hc hd fun p => ?_
  rw [mem_iff_get hc hcn, mem_iff_get hd hdn, h]

/-- A canonical segment reads 0 at and beyond its length. -/
theorem Segment.get_cells_beyond {g : Segment} (h : g.wf = true) {o : Nat} (ho : g.len.toNat ≤ o) :
    Cells.get g.cells o = 0 :=
  Cells.get_of_forall_ne fun p hp e => by
    have := (((Segment.wf_iff g).1 h).2 p hp).1
    omega

/-- Settles O26: canonical lists that read alike below the length read alike everywhere. -/
theorem segmentsThatReadAlikeAreEqual : Obligations.SegmentsThatReadAlikeAreEqual := by
  intro g h hg hh hlen hread
  obtain ⟨hgr, hgn⟩ := (Segment.wf_iff g).1 hg
  obtain ⟨hhr, hhn⟩ := (Segment.wf_iff h).1 hh
  have hcells : g.cells = h.cells := by
    refine Cells.ext hgr hhr (fun p hp => (hgn p hp).2) (fun p hp => (hhn p hp).2) fun o => ?_
    rcases Nat.lt_or_ge o g.len.toNat with ho | ho
    · have hnat : (BitVec.ofNat 32 o).toNat = o := toNat_ofNat_of_lt (Nat.lt_trans ho g.len.isLt)
      have := hread (BitVec.ofNat 32 o) (BitVec.lt_def.2 (by rwa [hnat]))
      rwa [Segment.get, Segment.get, hnat] at this
    · rw [Segment.get_cells_beyond hg ho, Segment.get_cells_beyond hh (hlen ▸ ho)]
  exact congrArg₂ Segment.mk hlen hcells

/-! ### Reading after a write -/

/-- Settles O21, by the two reads after a write: at its address and elsewhere. -/
theorem memoryReadAfterWrite : Obligations.MemoryReadAfterWrite := by
  intro s t id o v hs hw id' o'
  by_cases h : id' = id ∧ o' = o
  · obtain ⟨rfl, rfl⟩ := h
    rw [if_pos ⟨rfl, rfl⟩, memRead_memWrite_same hs.memory hw]
  · rw [if_neg h, memRead_memWrite_other hs.memory hw h]

/-! ### Allocate -/

/-- The id an allocation hands out (R47): the most recently released one, else a new one. -/
def State.nextId (s : State) : Word := s.free.headD (BitVec.ofNat 32 s.slotCount)

/-- The state an allocation of `n` words leaves. -/
def State.allocated (s : State) (n : Word) : State :=
  match s.free with
  | [] => s.addSlot (.mapped (.zeros n))
  | id :: rest => (s.setSlot id (.mapped (.zeros n))).setFree rest

theorem allocate_of_granted {can : Nat → Nat → Bool} {n : Word} {s : State} (hc : can s.liveWords n.toNat = true)
    (hn : s.free = [] → s.slotCount < 2 ^ 32) : allocate can n s = .ok (s.nextId, s.allocated n) := by
  rw [allocate_eq_ok]
  refine ⟨hc, ?_⟩
  rw [State.nextId, State.allocated]
  cases hf : s.free with
  | nil => exact .inr ⟨rfl, Nat.ne_of_lt (hn hf), rfl, rfl⟩
  | cons id rest => exact .inl ⟨rest, rfl, rfl⟩

theorem State.segment?_addSlot (s : State) (sl : Slot) {q : Word} (h : q.toNat ≠ s.slotCount) :
    (s.addSlot sl).segment? q = s.segment? q := by
  rw [State.segment?, State.segment?, State.addSlot_slots, List.getElem?_append]
  by_cases hq : q.toNat < s.slots.length
  · rw [if_pos hq]
  · have h1 : s.slots[q.toNat]? = none := List.getElem?_eq_none (Nat.le_of_not_lt hq)
    have h2 : ([sl] : List Slot)[q.toNat - s.slots.length]? = none :=
      List.getElem?_eq_none (by rw [State.slotCount] at h; simp only [List.length_singleton]; omega)
    rw [if_neg hq, h1, h2]

theorem State.segment?_addSlot_new (s : State) (g : Segment) (h : s.slotCount < 2 ^ 32) :
    (s.addSlot (.mapped g)).segment? (BitVec.ofNat 32 s.slotCount) = some g := by
  rw [State.segment?_eq_some, toNat_ofNat_of_lt h]
  exact List.getElem?_concat_length

theorem State.segment?_of_unmapped {s : State} {id : Word} (h : s.slots[id.toNat]? = some .unmapped) :
    s.segment? id = none := by
  rw [State.segment?, h]

section
variable {s : State} (hs : s.StoreInv) (hn : s.free = [] → s.slotCount < 2 ^ 32)
include hs hn

theorem State.StoreInv.nextId_unused : s.segment? s.nextId = none := by
  rw [State.nextId]
  cases hf : s.free with
  | nil =>
    rw [List.headD_nil, State.segment?, toNat_ofNat_of_lt (hn hf), State.slotCount, List.getElem?_eq_none (Nat.le_refl _)]
  | cons id rest =>
    exact State.segment?_of_unmapped (hs.freeUnmapped id (by rw [hf]; exact List.mem_cons_self))

/-- The id is not 0, which names the program. -/
theorem State.StoreInv.nextId_ne_zero : s.nextId ≠ 0 := by
  intro h0
  obtain ⟨g, hg⟩ := hs.programSegment
  have := hs.nextId_unused hn
  rw [h0, hg] at this
  cases this

theorem State.StoreInv.allocated_segment (n : Word) : (s.allocated n).segment? s.nextId = some (.zeros n) := by
  rw [State.allocated, State.nextId]
  cases hf : s.free with
  | nil => exact s.segment?_addSlot_new _ (hn hf)
  | cons id rest =>
    have hu := hs.freeUnmapped id (by rw [hf]; exact List.mem_cons_self)
    exact s.segment?_setSlot_mapped _ (List.getElem?_eq_some_iff.1 hu).1

end

theorem State.allocated_segment_other {s : State} (hn : s.free = [] → s.slotCount < 2 ^ 32) (n : Word) {q : Word}
    (hq : q ≠ s.nextId) : (s.allocated n).segment? q = s.segment? q := by
  rw [State.nextId] at hq
  rw [State.allocated]
  cases hf : s.free with
  | nil =>
    rw [hf, List.headD_nil] at hq
    refine s.segment?_addSlot _ fun e => hq (BitVec.eq_of_toNat_eq ?_)
    rw [toNat_ofNat_of_lt (hn hf), e]
  | cons id rest =>
    rw [hf] at hq
    exact s.segment?_setSlot_other _ hq

theorem State.allocated_frame (s : State) (n : Word) :
    (s.allocated n).free = s.free.tail ∧
      (s.allocated n).slotCount = (if s.free = [] then s.slotCount + 1 else s.slotCount) ∧
      OnlyStore s (s.allocated n) := by
  rw [State.allocated]
  cases hf : s.free with
  | nil =>
    refine ⟨hf, ?_, .withStore s _ _⟩
    rw [if_pos rfl, State.slotCount, State.addSlot_slots, List.length_append, List.length_singleton, State.slotCount]
  | cons id rest => exact ⟨rfl, by rw [if_neg (List.cons_ne_nil _ _)]; exact List.length_set, .withStore s _ _⟩

theorem memRead_zeros {t : State} {id n : Word} (h : t.segment? id = some (.zeros n)) {o : Word} (ho : o < n) :
    memRead t id o = .ok 0 :=
  memRead_eq_ok.2 ⟨_, h, ho, (Segment.zeros_get n o).symm⟩

/-- Settles O22: the id handed out, its zero words, and what the allocation leaves. -/
theorem allocateGivesAFreshZeroSegment : Obligations.AllocateGivesAFreshZeroSegment := by
  intro can n s hs hc hn
  obtain ⟨hfree, hcount, hregs, -⟩ := s.allocated_frame n
  have hseg := hs.allocated_segment hn n
  exact ⟨_, _, allocate_of_granted hc hn, rfl, hs.nextId_ne_zero hn, hs.nextId_unused hn, by rw [hseg]; rfl,
    fun _ => memRead_zeros hseg, fun _ => State.allocated_segment_other hn n, hfree, hcount,
    fun r => hregs r List.not_mem_nil⟩

/-- Settles O23: no capacity, or no id left. -/
theorem allocateFailsWithoutStorageOrIds : Obligations.AllocateFailsWithoutStorageOrIds :=
  fun _ _ _ h => allocate_eq_error.2 ⟨rfl, h⟩

/-! ### Release -/

theorem memRead_of_unmapped {s : State} {id : Word} (h : s.segment? id = none) (o : Word) :
    memRead s id o = .error (.segmentFault (.unmappedSegment id)) :=
  memRead_eq_error.2 (.inl ⟨h, rfl⟩)

/-- Settles O24: id 0, an id with no segment, and a mapped id, which names no segment afterwards. -/
theorem releaseUnmapsAndPoolsTheId : Obligations.ReleaseUnmapsAndPoolsTheId := by
  intro s id
  refine ⟨fun h0 => release_eq_error.2 (.inl ⟨h0, rfl⟩), fun h0 hn => release_eq_error.2 (.inr ⟨h0, hn, rfl⟩),
    fun h0 hm => ?_⟩
  have hr := release_eq_ok.2 ⟨h0, Option.ne_none_iff_exists'.1 hm, rfl⟩
  obtain ⟨hgone, hfree, hother⟩ := release_segment hr
  obtain ⟨hcount, hregs, -⟩ := release_frame hr
  exact ⟨_, hr, hfree, hcount, fun r => hregs r List.not_mem_nil, hother, memRead_of_unmapped hgone,
    release_eq_error.2 (.inr ⟨h0, hgone, rfl⟩)⟩

/-! ### ReplaceProgram -/

section
variable {s : State} (hs : s.StoreInv) (g : Segment)
include hs

/-- Segment 0 is mapped, so that it takes the segment given. -/
theorem State.StoreInv.setProgram_segment : (s.setSlot 0 (.mapped g)).segment? 0 = some g := by
  obtain ⟨p, hp⟩ := hs.programSegment
  exact s.segment?_setSlot_mapped g (State.lt_of_segment? hp)

theorem State.StoreInv.setProgram_programLength : (s.setSlot 0 (.mapped g)).programLength = g.len :=
  State.programLength_eq (hs.setProgram_segment g)

end

/-- A write to one segment changes no read of another. -/
theorem memRead_memWrite_other_segment {s t : State} {id o v q : Word} (h : memWrite s id o v = .ok t) (hq : q ≠ id)
    (p : Word) : memRead t q p = memRead s q p := by
  obtain ⟨_, -, -, -, hother⟩ := memWrite_segment h
  exact memRead_congr (hother q hq) p

/-- Settles O25: the copy is a value of its own, so that a write to either segment is a write to another one. -/
theorem programReplacementIsADeepCopy : Obligations.ProgramReplacementIsADeepCopy := by
  intro can s id g hs h0 hg hc
  exact ⟨_, replaceProgram_eq_ok.2 (.inr ⟨h0, g, hg, hc, rfl⟩), hs.setProgram_segment g, hs.setProgram_programLength g,
    fun _ => s.segment?_setSlot_other _, rfl, List.length_set,
    fun _ _ _ hw => memRead_memWrite_other_segment hw h0.symm, fun _ _ _ hw => memRead_memWrite_other_segment hw h0⟩

end Sys2Proof.Machine
end

section
/-! Divide, Map Segment, Load Program and Output (40_register_ops.md R93; 41_segment_ops.md R99; 42_control.md R106;
43_io.md R112) on the registers the machine has, and the register check that precedes every instruction. -/

namespace Sys2Proof.Machine

/-! ### Divide -/

section
variable (a b c : Fin 8) (s : State)

theorem exec_div_of_ne_zero (h : s.reg c ≠ 0) :
    exec (.div a b c) s = .next (s.setReg a (divResult (s.reg b) (s.reg c))) := by
  simp only [exec, execDiv, regIx_fin, bind_ok, if_neg h, attempt_ok]

theorem exec_div_of_zero (h : s.reg c = 0) : exec (.div a b c) s = .next (s.raiseFault .divisionByZero) := by
  simp only [exec, execDiv, regIx_fin, bind_ok, if_pos h, attempt_error]

end

theorem divResult_toNat (v w : Word) : (divResult v w).toNat = v.toNat / w.toNat :=
  BitVec.toNat_udiv

/-- Settles O30, by the test of the divisor. -/
theorem divideResult : Obligations.DivideResult :=
  ⟨fun _ h => decode_of_opcode h (by omega), fun a b c s =>
    ⟨fun h => ⟨_, exec_div_of_ne_zero a b c s h, by rw [State.reg_setReg_same, divResult_toNat], .setReg s a _⟩,
      fun h => ⟨_, exec_div_of_zero a b c s h, s.raiseFault_entered _⟩⟩⟩

/-! ### Map Segment -/

section
variable (b c : Fin 8) (s : State)

theorem exec_map_of_granted (hc : Config.canAllocate s.liveWords (s.reg c).toNat = true)
    (hn : s.free = [] → s.slotCount < 2 ^ 32) :
    exec (.map b c) s = .next ((s.allocated (s.reg c)).setReg b s.nextId) := by
  simp only [exec, execMap, regIx_fin, bind_ok, allocate_of_granted hc hn, attempt_ok]

theorem exec_map_of_refused
    (h : Config.canAllocate s.liveWords (s.reg c).toNat = false ∨ (s.free = [] ∧ s.slotCount = 2 ^ 32)) :
    exec (.map b c) s = .next (s.raiseFault (.allocationFailure (s.reg c).toNat)) := by
  simp only [exec, execMap, regIx_fin, bind_ok, allocate_eq_error.2 ⟨rfl, h⟩, bind_error, attempt_error]

end

/-- The store grants `n` words with an id left, or refuses them. -/
theorem State.StoreInv.granted_or_refused {s : State} (hs : s.StoreInv) (n : Nat) :
    (Config.canAllocate s.liveWords n = true ∧ (s.free = [] → s.slotCount < 2 ^ 32)) ∨
      (Config.canAllocate s.liveWords n = false ∨ (s.free = [] ∧ s.slotCount = 2 ^ 32)) := by
  have hb : s.slotCount ≤ 2 ^ 32 := hs.bounded
  cases hc : Config.canAllocate s.liveWords n with
  | false => exact .inr (.inl rfl)
  | true =>
    by_cases hn : s.free = [] ∧ s.slotCount = 2 ^ 32
    · exact .inr (.inr hn)
    · exact .inl ⟨rfl, fun hf => Nat.lt_of_le_of_ne hb fun e => hn ⟨hf, e⟩⟩

/-- Settles O35, by the store's answer: the allocation with its id written, or AllocationFailure. -/
theorem mapSegmentResult : Obligations.MapSegmentResult := by
  refine ⟨fun w h => decode_of_opcode h (by omega), fun b c s hs => ?_⟩
  rcases hs.granted_or_refused (s.reg c).toNat with ⟨hc, hn⟩ | hrefused
  · refine ⟨_, exec_map_of_granted b c s hc hn, fun _ _ => ?_, ?_⟩
    · obtain ⟨hfree, hcount, hregs, hrest⟩ := s.allocated_frame (s.reg c)
      have hseg := hs.allocated_segment hn (s.reg c)
      have hregs' : SameRegsBut [b] s ((s.allocated (s.reg c)).setReg b s.nextId) := fun q hq => by
        rw [State.reg_setReg_other _ b q _ (mt List.mem_singleton.2 hq), hregs q List.not_mem_nil]
      simp only [State.reg_setReg_same, State.setReg_segment, State.setReg_memRead]
      exact ⟨rfl, hs.nextId_ne_zero hn, hs.nextId_unused hn, by rw [hseg]; rfl, fun _ => memRead_zeros hseg,
        fun id hid => ⟨State.allocated_segment_other hn _ hid, memRead_congr (State.allocated_segment_other hn _ hid)⟩,
        hfree, hcount, hregs', hrest⟩
    · rintro (hf | ⟨hf, hfull⟩)
      · exact absurd (hc.symm.trans hf) (by decide)
      · exact absurd hfull (Nat.ne_of_lt (hn hf))
  · refine ⟨_, exec_map_of_refused b c s hrefused, fun hc hn => ?_, fun _ => s.raiseFault_entered _⟩
    rcases hrefused with hf | ⟨hf, hfull⟩
    · exact absurd (hc.symm.trans hf) (by decide)
    · exact absurd hfull (Nat.ne_of_lt (hn hf))

/-! ### Load Program -/

section
variable (b c : Fin 8) (s : State)

theorem exec_loadp_of_zero (h : s.reg b = 0) : exec (.loadp b c) s = .next (s.setPc (s.reg c)) := by
  simp only [exec, execLoadp, regIx_fin, bind_ok, if_pos h, attempt_ok]

theorem exec_loadp_of_copy {t : State} (h0 : s.reg b ≠ 0)
    (h : replaceProgram Config.canAllocate (s.reg b) s = .ok t) :
    exec (.loadp b c) s = .next (t.setPc (s.reg c)) := by
  simp only [exec, execLoadp, regIx_fin, bind_ok, if_neg h0, h, attempt_ok]

theorem exec_loadp_of_fault {f : Raised} (h0 : s.reg b ≠ 0)
    (h : replaceProgram Config.canAllocate (s.reg b) s = .error f) :
    exec (.loadp b c) s = .next (s.raiseFault f) := by
  simp only [exec, execLoadp, regIx_fin, bind_ok, if_neg h0, h, bind_error, attempt_error]

end

/-- Settles O38: a jump, a copy and a jump, the copy's refusal, and an id with no segment. -/
theorem loadProgramResult : Obligations.LoadProgramResult := by
  refine ⟨fun w h => decode_of_opcode h (by omega), fun b c s hs => ⟨fun h0 => ?_, fun g h0 hg => ?_, fun h0 hn => ?_⟩⟩
  · exact ⟨_, exec_loadp_of_zero b c s h0, rfl, fun _ _ => rfl, .of_eq rfl rfl, ⟨rfl, rfl, rfl⟩,
      ⟨rfl, rfl, rfl, rfl⟩, rfl⟩
  · cases hc : Config.canAllocate (s.liveWords - s.programLength.toNat) g.len.toNat with
    | true =>
      have hr := replaceProgram_eq_ok.2 (.inr ⟨h0, g, hg, hc, rfl⟩)
      refine ⟨_, exec_loadp_of_copy b c s h0 hr, fun _ => ?_, fun hf => by cases hf⟩
      have hother : ∀ id, id ≠ 0 → (s.setSlot 0 (.mapped g)).segment? id = s.segment? id :=
        fun _ => s.segment?_setSlot_other _
      exact ⟨rfl, hs.setProgram_segment g, hs.setProgram_programLength g,
        fun id hid => ⟨hother id hid, memRead_congr (hother id hid)⟩, rfl, List.length_set, fun _ _ => rfl,
        ⟨rfl, rfl, rfl⟩, ⟨rfl, rfl, rfl, rfl⟩, rfl⟩
    | false =>
      have hr := replaceProgram_eq_error.2 ⟨h0, .inr ⟨g, hg, hc, rfl⟩⟩
      exact ⟨_, exec_loadp_of_fault b c s h0 hr, fun ht => (by cases ht), fun _ => s.raiseFault_entered _⟩
  · exact ⟨_, exec_loadp_of_fault b c s h0 (replaceProgram_eq_error.2 ⟨h0, .inl ⟨hn, rfl⟩⟩), s.raiseFault_entered _⟩

/-! ### Output -/

section
variable (c : Fin 8) (s : State)

theorem exec_out_of_byte (h : (s.reg c).toNat ≤ 255) :
    exec (.out c) s = .next (s.consoleWrite (outputByte (s.reg c))) := by
  have hle : ¬ 255#32 < s.reg c := BitVec.not_lt.2 (BitVec.le_def.2 h)
  simp only [exec, execOut, regIx_fin, bind_ok, if_neg hle, attempt_ok]

theorem exec_out_of_large (h : 255 < (s.reg c).toNat) :
    exec (.out c) s = .next (s.raiseFault (.outputRange (s.reg c))) := by
  have hlt : 255#32 < s.reg c := BitVec.lt_def.2 h
  simp only [exec, execOut, regIx_fin, bind_ok, if_pos hlt, attempt_error]

end

/-- A value of 0 to 255 is its own low byte. -/
theorem outputByte_toNat {v : Word} (h : v.toNat ≤ 255) : (outputByte v).toNat = v.toNat := by
  have hand : v.toNat &&& 255 = v.toNat % 2 ^ 8 := Nat.and_two_pow_sub_one_eq_mod v.toNat 8
  rw [outputByte, BitVec.truncate_eq_setWidth, BitVec.toNat_setWidth, BitVec.toNat_and]
  show (v.toNat &&& 255) % 2 ^ 8 = v.toNat
  rw [hand]
  omega

/-- Settles O39, by the range of the value. -/
theorem outputResult : Obligations.OutputResult :=
  ⟨fun _ h => decode_of_opcode h (by omega), fun c s =>
    ⟨fun h => ⟨_, _, exec_out_of_byte c s h, outputByte_toNat h, rfl, fun _ _ => rfl, rfl, .of_eq rfl rfl,
        ⟨rfl, rfl, rfl⟩, ⟨rfl, rfl, rfl, rfl⟩⟩,
      fun h => ⟨_, exec_out_of_large c s h, s.raiseFault_entered _⟩⟩⟩

/-! ### The register check -/

/-- An operation that has these indices to check faults on a bad one of them. -/
def FaultsOnBadIndex (ks : List Nat) (r : Except Raised State) : Prop :=
  (∃ k ∈ ks, 7 < k) → ∃ k ∈ ks, 7 < k ∧ r = .error (.invalidRegister k)

theorem FaultsOnBadIndex.nil (r : Except Raised State) : FaultsOnBadIndex [] r := by
  rintro ⟨k, hk, -⟩
  cases hk

/-- The check of the first index comes first, and the rest follow it. -/
theorem FaultsOnBadIndex.cons {k : Nat} {ks : List Nat} {f : Fin 8 → Except Raised State}
    (h : ∀ r, FaultsOnBadIndex ks (f r)) : FaultsOnBadIndex (k :: ks) (regIx k >>= f) := by
  intro hbad
  cases hk : regIx k with
  | error e =>
    obtain ⟨h7, rfl⟩ := regIx_eq_error.1 hk
    exact ⟨k, List.mem_cons_self, h7, rfl⟩
  | ok r =>
    have hlt := r.isLt
    rw [← regIx_eq_ok.1 hk] at hlt
    obtain ⟨j, hj, h7⟩ := hbad
    rcases List.mem_cons.1 hj with rfl | hj
    · omega
    · obtain ⟨q, hq, hq7, he⟩ := h r ⟨j, hj, h7⟩
      exact ⟨q, List.mem_cons_of_mem _ hq, hq7, he⟩

/-- Every instruction is an attempted operation that checks its indices first. -/
theorem exec_checks_indices (i : Instr) (s : State) :
    ∃ r, exec i s = attempt s r ∧ FaultsOnBadIndex i.registers r := by
  cases i with
  | cmov a b c | sload a b c | sstore a b c | add a b c | mul a b c | div a b c | nand a b c =>
    exact ⟨_, rfl, .cons fun _ => .cons fun _ => .cons fun _ => .nil _⟩
  | map b c | loadp b c => exact ⟨_, rfl, .cons fun _ => .cons fun _ => .nil _⟩
  | unmap c | out c | inp c | loadi c _ => exact ⟨_, rfl, .cons fun _ => .nil _⟩
  | halt => exact ⟨_, rfl, .nil _⟩

/-- Settles O41: the check of the indices comes before everything else of the instruction. -/
theorem badRegisterIndexFaultsFirst : Obligations.BadRegisterIndexFaultsFirst := by
  intro i s hi
  obtain ⟨r, he, hr⟩ := exec_checks_indices i s
  obtain ⟨k, hk, h7, hf⟩ := hr (Instr.exists_wide_register hi)
  exact ⟨k, hk, h7, _, by rw [he, hf, attempt_error], s.raiseFault_entered _⟩

end Sys2Proof.Machine
end

section
/-! No instruction reads `pc` as an operand (10_state.md R21): run from states that differ in `pc` alone, the same
operation answers states that differ in `pc` alone. -/

namespace Sys2Proof.Machine

/-- Two operations' answers that differ in `pc` alone. -/
def AgreeButPc (r r' : Except Raised State) : Prop := r.map (·.setPc 0) = r'.map (·.setPc 0)

theorem AgreeButPc.bind {α : Type} (m : Except Raised α) {f f' : α → Except Raised State}
    (h : ∀ x, AgreeButPc (f x) (f' x)) : AgreeButPc (m >>= f) (m >>= f') := by
  cases m with
  | ok x => exact h x
  | error e => rfl

theorem AgreeButPc.ite (p : Prop) [Decidable p] {a a' b b' : Except Raised State} (ha : AgreeButPc a a')
    (hb : AgreeButPc b b') : AgreeButPc (if p then a else b) (if p then a' else b') := by
  by_cases h : p
  · rwa [if_pos h, if_pos h]
  · rwa [if_neg h, if_neg h]

/-- The attempted operations enter the same fault, or answer states that differ in `pc` alone. -/
theorem AgreeButPc.attempt {s : State} {v : Word} {r r' : Except Raised State} (h : AgreeButPc r r') {t : State}
    (ht : attempt s r = .next t) : ∃ u, attempt (s.setPc v) r' = .next u ∧ u.setPc 0 = t.setPc 0 := by
  refine ⟨_, rfl, ?_⟩
  cases r with
  | ok x =>
    cases r' with
    | ok y =>
      cases ht
      exact (Except.ok.inj h).symm
    | error e => cases h
  | error e =>
    cases r' with
    | ok y => cases h
    | error e' =>
      cases ht
      cases h
      rfl

/-! ### The operations on the store -/

theorem allocate_setPc (can : Nat → Nat → Bool) (n : Word) (s : State) (v : Word) :
    allocate can n (s.setPc v) = (allocate can n s).map fun p => (p.1, p.2.setPc v) := by
  cases h : allocate can n s with
  | error f => exact allocate_eq_error.2 (allocate_eq_error (s := s).1 h)
  | ok p =>
    obtain ⟨hc, ⟨rest, hf, ht⟩ | ⟨hf, hn, hid, ht⟩⟩ := allocate_eq_ok.1 h
    · exact allocate_eq_ok.2 ⟨hc, .inl ⟨rest, hf, congrArg (·.setPc v) ht⟩⟩
    · exact allocate_eq_ok.2 ⟨hc, .inr ⟨hf, hn, hid, congrArg (·.setPc v) ht⟩⟩

theorem release_setPc (id : Word) (s : State) (v : Word) :
    release id (s.setPc v) = (release id s).map (·.setPc v) := by
  cases h : release id s with
  | error f => exact release_eq_error.2 (release_eq_error (s := s).1 h)
  | ok t =>
    obtain ⟨h0, hg, ht⟩ := release_eq_ok.1 h
    exact release_eq_ok.2 ⟨h0, hg, congrArg (·.setPc v) ht⟩

theorem replaceProgram_setPc (can : Nat → Nat → Bool) (id : Word) (s : State) (v : Word) :
    replaceProgram can id (s.setPc v) = (replaceProgram can id s).map (·.setPc v) := by
  cases h : replaceProgram can id s with
  | error f => exact replaceProgram_eq_error.2 (replaceProgram_eq_error (s := s).1 h)
  | ok t =>
    rcases replaceProgram_eq_ok.1 h with ⟨h0, ht⟩ | ⟨h0, g, hg, hc, ht⟩
    · exact replaceProgram_eq_ok.2 (.inl ⟨h0, congrArg (·.setPc v) ht⟩)
    · exact replaceProgram_eq_ok.2 (.inr ⟨h0, g, hg, hc, congrArg (·.setPc v) ht⟩)

theorem AgreeButPc.of_memWrite (s : State) (v id o w : Word) :
    AgreeButPc (memWrite s id o w) (memWrite (s.setPc v) id o w) :=
  .bind (lookup s id) fun g => .ite (o < g.len) rfl rfl

theorem AgreeButPc.of_release (s : State) (v id : Word) : AgreeButPc (release id s) (release id (s.setPc v)) := by
  rw [release_setPc]
  cases release id s <;> rfl

theorem AgreeButPc.of_allocate (s : State) (v n : Word) (b : Fin 8) :
    AgreeButPc (allocate Config.canAllocate n s >>= fun p => .ok (p.2.setReg b p.1))
      (allocate Config.canAllocate n (s.setPc v) >>= fun p => .ok (p.2.setReg b p.1)) := by
  rw [allocate_setPc]
  cases allocate Config.canAllocate n s <;> rfl

theorem AgreeButPc.of_replaceProgram (s : State) (v id w : Word) :
    AgreeButPc ((if id = 0 then .ok s else replaceProgram Config.canAllocate id s) >>= fun t => .ok (t.setPc w))
      ((if id = 0 then .ok (s.setPc v) else replaceProgram Config.canAllocate id (s.setPc v)) >>= fun t =>
        .ok (t.setPc w)) := by
  by_cases h : id = 0
  · rw [if_pos h, if_pos h]
    rfl
  · rw [if_neg h, if_neg h, replaceProgram_setPc]
    cases replaceProgram Config.canAllocate id s <;> rfl

theorem AgreeButPc.of_takeReply (s : State) (v : Word) (c : Fin 8) :
    AgreeButPc (.ok (s.takeReply c s.consoleReply)) (.ok ((s.setPc v).takeReply c (s.setPc v).consoleReply)) := by
  rw [State.setPc_consoleReply]
  cases s.consoleReply <;> rfl

/-! ### The instructions -/

/-- What Input's operation is once its index is checked. -/
theorem execInp_eq (c : Nat) (s : State) :
    execInp c s = attempt s (regIx c >>= fun c => .ok (s.takeReply c s.consoleReply)) := by
  simp only [execInp]
  cases s.consoleReply <;> rfl

/-- Every instruction is an attempted operation whose answer from another `pc` differs in `pc` alone. -/
theorem exec_agreeButPc (i : Instr) (s : State) (v : Word) :
    ∃ r r', exec i s = attempt s r ∧ exec i (s.setPc v) = attempt (s.setPc v) r' ∧ AgreeButPc r r' := by
  cases i with
  | add a b c | mul a b c | nand a b c =>
    exact ⟨_, _, rfl, rfl, .bind _ fun _ => .bind _ fun _ => .bind _ fun _ => rfl⟩
  | cmov a b c | div a b c =>
    exact ⟨_, _, rfl, rfl, .bind _ fun _ => .bind _ fun _ => .bind _ fun rc => .ite (s.reg rc = 0) rfl rfl⟩
  | sload a b c =>
    exact ⟨_, _, rfl, rfl, .bind _ fun _ => .bind _ fun rb => .bind _ fun rc =>
      .bind (memRead s (s.reg rb) (s.reg rc)) fun _ => rfl⟩
  | sstore a b c => exact ⟨_, _, rfl, rfl, .bind _ fun _ => .bind _ fun _ => .bind _ fun _ => .of_memWrite s v _ _ _⟩
  | loadi a literal => exact ⟨_, _, rfl, rfl, .bind _ fun _ => rfl⟩
  | halt => exact ⟨_, _, rfl, rfl, rfl⟩
  | map b c => exact ⟨_, _, rfl, rfl, .bind _ fun rb => .bind _ fun _ => .of_allocate s v _ rb⟩
  | unmap c => exact ⟨_, _, rfl, rfl, .bind _ fun _ => .of_release s v _⟩
  | out c => exact ⟨_, _, rfl, rfl, .bind _ fun rc => .ite (255#32 < s.reg rc) rfl rfl⟩
  | inp c => exact ⟨_, _, execInp_eq c s, execInp_eq c _, .bind _ fun rc => .of_takeReply s v rc⟩
  | loadp b c => exact ⟨_, _, rfl, rfl, .bind _ fun _ => .bind _ fun _ => .of_replaceProgram s v _ _⟩

/-- Settles O60, by the frame of the instruction and by its operation from another `pc`. -/
theorem programCounterIsNoOperand : Obligations.ProgramCounterIsNoOperand := by
  intro i s t v h
  refine ⟨(exec_frame h).pc, ?_⟩
  obtain ⟨r, r', he, he', hr⟩ := exec_agreeButPc i s v
  rw [he']
  exact hr.attempt (he.symm.trans h)

end Sys2Proof.Machine
end

section
/-! Whole steps (42_control.md R102 to R104) and the ends of a run (10_state.md R27, R35; 60_exceptions.md R142). -/

namespace Sys2Proof.Machine

/-! ### Reset -/

theorem State.reset_segment : State.reset.segment? 0 = some ⟨0, []⟩ := rfl

/-- Settles O16, field by field; segment 0 has no word, so every offset is out of range. -/
theorem resetTableHolds : Obligations.ResetTableHolds :=
  ⟨rfl, rfl, rfl, rfl, rfl, ⟨_, State.reset_segment, rfl⟩, fun _ =>
    memRead_eq_error.2 (.inr ⟨_, State.reset_segment, BitVec.not_lt.1 BitVec.not_lt_zero, rfl⟩)⟩

theorem State.reset_storeInv : State.reset.StoreInv where
  program := ⟨_, rfl⟩
  bounded := by decide
  nodup := List.nodup_nil
  freeUnmapped _ h := by cases h
  unmappedFree id h := by
    have hmem := List.mem_of_getElem? h
    rw [State.reset, List.mem_singleton] at hmem
    cases hmem
  memory := by decide

/-- Settles O17: the one slot is mapped and empty, and nothing has begun. -/
theorem resetMeetsTheInvariant : Obligations.ResetMeetsTheInvariant where
  store := State.reset_storeInv
  record := by decide
  idle _ := rfl
  waits _ h := by cases h
  ended h := by cases h

/-! ### Which blocks take a step -/

theorem step_of_loading {s : State} (hs : s.status = .loading) : step s = .next s.load := by
  simp only [step, hs]

/-- A fetch fault is entered with `pc` at the address of the fetch (R103, R129). -/
theorem step_of_fetch_fault {s : State} {f : Raised} (hs : s.status = .running) (hw : s.waiting = none)
    (hm : memRead s 0 s.pc = .error f) : step s = .next (s.fetching.raiseFault f) := by
  have hf : fetch s = .error f := hm
  simp only [step, hs, runStep, hw, runInstruction, hf]

theorem step_total_of_running {s : State} (hs : s.status = .running) : ∃ t, step s = .next t := by
  cases hw : s.waiting with
  | some c => exact ⟨_, step_of_waiting hs hw⟩
  | none =>
    cases hm : memRead s 0 s.pc with
    | error f => exact ⟨_, step_of_fetch_fault hs hw hm⟩
    | ok w =>
      cases hd : decode w with
      | error f => exact ⟨_, step_of_decode_error hs hw hm hd⟩
      | ok i =>
        obtain ⟨t, ht⟩ := exec_total i (s.advance w)
        exact ⟨_, (step_of_decode_ok hs hw hm hd).trans (execute_of_next ht)⟩

/-- Settles O48, by the run status. -/
theorem onlyEndedRunsTakeNoStep : Obligations.OnlyEndedRunsTakeNoStep := by
  intro s
  refine ⟨?_, fun hs => by simp only [step, hs], fun hs => by simp only [step, hs]⟩
  rintro (hs | hs)
  · exact ⟨_, step_of_loading hs⟩
  · exact step_total_of_running hs

/-! ### The decoded instruction and the termination check -/

theorem State.finish_eq_ite (t : State) :
    t.finish =
      if t.status = .running ∧ t.waiting = none then
        { t with inFlight := none, status := if t.pc = t.programLength then .terminated else .running }
      else t := by
  by_cases h : t.status = .running ∧ t.waiting = none
  · rw [if_pos h, t.finish_of_completed h.1 h.2]
  · rw [if_neg h]
    by_cases hs : t.status = .running
    · obtain ⟨c, hc⟩ := Option.ne_none_iff_exists'.1 fun hw => h ⟨hs, hw⟩
      exact t.finish_of_waiting hc
    · exact t.finish_of_not_running hs

/-- Settles O42: the step is the instruction at the advanced state, and what follows it is the termination check. -/
theorem stepRunsTheDecodedInstruction : Obligations.StepRunsTheDecodedInstruction := by
  intro s w i hs hw hm hd
  obtain ⟨t, ht⟩ := exec_total i (s.advance w)
  have ht' : exec i { s with pc := s.pc + 1, inFlight := some { addr := s.pc, word := some w } } = .next t := ht
  rw [step_of_decode_ok hs hw hm hd, execute_of_next ht, ht', State.finish_eq_ite]

/-- Settles O43: the program's segment is mapped, so the fetch fault is an offset out of range. -/
theorem fetchBeyondTheProgramFaults : Obligations.FetchBeyondTheProgramFaults := by
  intro s hi hs hw hpc
  obtain ⟨g, hg⟩ := hi.store.programSegment
  rw [State.programLength_eq hg] at hpc
  exact ⟨_, step_of_fetch_fault hs hw (memRead_eq_error.2 (.inr ⟨g, hg, hpc, rfl⟩)), rfl, rfl, rfl, fun _ _ => rfl,
    .of_eq rfl rfl, ⟨rfl, rfl, rfl, rfl⟩, rfl⟩

/-- What a Running block's instruction leaves before the termination check is Running or Faulted. -/
theorem exec_status_of_running {i : Instr} {s u : State} (hs : s.status = .running) (h : exec i s = .next u) :
    u.status = .running ∨ u.status = .faulted := by
  rcases exec_control h with ⟨hst, -, -⟩ | ⟨f, -, rfl⟩
  · exact .inl (hst.trans hs)
  · exact .inr rfl

/-- The termination check by equality (R104, D22), for what an instruction leaves Running. -/
theorem State.finish_status {u : State} (hs : u.status = .running) :
    (u.finish.waiting = none →
      (u.finish.status = .terminated ↔ u.finish.pc = u.finish.programLength) ∧
      (u.finish.status = .running ↔ u.finish.pc ≠ u.finish.programLength)) ∧
    (u.finish.waiting ≠ none → u.finish.status = .running) := by
  cases hw : u.waiting with
  | some c =>
    rw [u.finish_of_waiting hw, hw]
    exact ⟨fun h => (by cases h), fun _ => hs⟩
  | none =>
    have hlen := u.finish_programLength
    rw [u.finish_of_completed hs hw] at hlen ⊢
    rw [hlen]
    refine ⟨fun _ => ?_, fun h => absurd hw h⟩
    by_cases hpc : u.pc = u.programLength <;> simp [hpc]

/-- The run status of a state after the termination check is Faulted only where the instruction entered a fault. -/
theorem State.finish_faulted_iff (u : State) : u.finish.status = .faulted ↔ u.status = .faulted := by
  rw [u.finish_eq_ite]
  by_cases h : u.status = .running ∧ u.waiting = none
  · rw [if_pos h, h.1]
    by_cases hpc : u.pc = u.programLength <;> simp [hpc]
  · rw [if_neg h]

/-- Settles O45: a step that enters no fault ends in the termination check. -/
theorem terminationCheckIsEquality : Obligations.TerminationCheckIsEquality := by
  intro s t hs hst hnf
  rcases step_running hs hst with ⟨c, u, -, hu, rfl⟩ | ⟨f, -, -, rfl⟩ | ⟨w, f, -, -, -, rfl⟩ |
    ⟨w, i, u, -, -, -, hu, rfl⟩
  · exact State.finish_status ((exec_status_of_running hs hu).resolve_right (mt u.finish_faulted_iff.2 hnf))
  · exact absurd rfl hnf
  · exact absurd rfl hnf
  · exact State.finish_status
      ((exec_status_of_running (s := s.advance w) hs hu).resolve_right (mt u.finish_faulted_iff.2 hnf))

theorem State.finish_pc (u : State) : u.finish.pc = u.pc := u.finish_keeps.2.1

/-- Settles O46, by the instruction's effect; the termination check writes no `pc`. -/
theorem programCounterAfterEachInstruction : Obligations.ProgramCounterAfterEachInstruction := by
  intro s t w i hs hw hm hd hst
  obtain ⟨u, hu⟩ := exec_total i (s.advance w)
  rw [step_of_decode_ok hs hw hm hd, execute_of_next hu] at hst
  cases hst
  rw [Ne, u.finish_faulted_iff, u.finish_pc, u.finish_programLength]
  rcases exec_next hu with he | ⟨f, -, rfl⟩
  · have hnf : u.status ≠ .faulted := by
      rw [he.sameControl.1, State.advance_status, hs]
      decide
    refine ⟨fun h => absurd h hnf, fun _ => ⟨?_, ?_, he.frame.pc⟩⟩
    · rintro rfl
      cases he
      rfl
    · rintro b c rfl
      obtain ⟨rb, rc, -, hc, v, -, rfl⟩ := he
      rw [Fin.ext hc]
      rfl
  · exact ⟨fun _ => rfl, fun h => absurd rfl h⟩

/-- Settles O47: the store's word is at the advanced `pc`, which is inside the program, so the run goes on there. -/
theorem storeToProgramIsFetchedNext : Obligations.StoreToProgramIsFetchedNext := by
  intro s w a b c hi hs hw hm hd ha hb hlt
  obtain ⟨g, hg⟩ := hi.store.programSegment
  rw [State.programLength_eq hg] at hlt
  obtain ⟨u, hu⟩ : ∃ u, memWrite (s.advance w) 0 (s.pc + 1) (s.reg c) = .ok u :=
    ⟨_, memWrite_eq_ok.2 ⟨g, hg, hlt, rfl⟩⟩
  have hexec : exec (.sstore a b c) (s.advance w) = .next u := by
    rw [exec_sstore, State.advance_reg, State.advance_reg, State.advance_reg, ha, hb, hu, attempt_ok]
  have hread : memRead u 0 (s.pc + 1) = .ok (s.reg c) :=
    memRead_memWrite_same (s := s.advance w) hi.store.memory hu
  obtain ⟨-, -, -, hpc, ⟨hst, -, -⟩, ⟨-, -, -, hwait⟩, -⟩ := memWrite_frame hu
  obtain ⟨g', -, hlt', hseg, -⟩ := memWrite_segment hu
  have hne : u.pc ≠ u.programLength := by
    rw [State.programLength_eq hseg, Segment.set_len, hpc]
    exact fun e => BitVec.lt_irrefl _ (e ▸ hlt')
  refine ⟨_, (step_of_decode_ok hs hw hm hd).trans (execute_of_next hexec), ?_⟩
  rw [u.finish_of_completed (hst.trans hs) (hwait.trans hw)]
  exact ⟨if_neg hne, hpc, by rw [← hread, hpc]; rfl⟩

/-! ### What a step leaves of the store and the output log -/

theorem State.slotCount_congr {s t : State} (h : t.slots = s.slots) : t.slotCount = s.slotCount :=
  congrArg List.length h

theorem State.finish_slotCount (u : State) : u.finish.slotCount = u.slotCount :=
  State.slotCount_congr u.finish_keeps.2.2.1

theorem State.finish_output (u : State) : u.finish.output = u.output := by
  rw [u.finish_eq_ite]
  split <;> rfl

/-- An image load writes one slot and no output. -/
theorem State.load_frame (s : State) : s.load.slotCount = s.slotCount ∧ s.load.output = s.output := by
  rcases s.load_cases with h | ⟨f, -, h⟩
  · obtain ⟨_, _, -, -, -, -, -, ht⟩ := loadImage_eq_ok.1 h
    rw [ht]
    exact ⟨List.length_set, rfl⟩
  · rw [h]
    exact ⟨rfl, rfl⟩

/-- A step is an image load, a fault entered from the state with `pc` and the note of the instruction moved on, or an
instruction and the end of it: the waiting Input, or the one decoded from the word at `pc`. -/
theorem step_cases {s t : State} (h : step s = .next t) :
    t = s.load ∨
    (∃ (s' : State) (f : Raised), s'.slots = s.slots ∧ s'.output = s.output ∧ t = s'.raiseFault f) ∨
    (∃ (i : Instr) (s' u : State), s'.slots = s.slots ∧ s'.output = s.output ∧ exec i s' = .next u ∧ t = u.finish ∧
      s.status = .running ∧ ((∃ c, i = .inp c) ∨
        s.waiting = none ∧ ∃ w, memRead s 0 s.pc = .ok w ∧ decode w = .ok i)) := by
  cases hs : s.status with
  | loading =>
    rw [step_of_loading hs] at h
    cases h
    exact .inl rfl
  | running =>
    rcases step_running hs h with ⟨c, u, -, hu, rfl⟩ | ⟨f, -, -, rfl⟩ | ⟨w, f, -, -, -, rfl⟩ |
      ⟨w, i, u, hw, hm, hd, hu, rfl⟩
    · exact .inr (.inr ⟨_, s, u, rfl, rfl, hu, rfl, rfl, .inl ⟨c, rfl⟩⟩)
    · exact .inr (.inl ⟨s.fetching, f, rfl, rfl, rfl⟩)
    · exact .inr (.inl ⟨s.advance w, f, rfl, rfl, rfl⟩)
    · exact .inr (.inr ⟨i, s.advance w, u, rfl, rfl, hu, rfl, rfl, .inr ⟨hw, w, hm, hd⟩⟩)
  | terminated => simp [step, hs] at h
  | faulted => simp [step, hs] at h

/-- Settles O54, by what a step can be: only an instruction adds a slot, and it adds one. -/
theorem slotCountOnlyGrows : Obligations.SlotCountOnlyGrows := by
  intro s t h
  rcases step_cases h with rfl | ⟨s', f, hs', -, rfl⟩ | ⟨i, s', u, hs', -, hu, rfl, -⟩
  · rw [s.load_frame.1]
    omega
  · rw [State.raiseFault_slotCount, State.slotCount_congr hs']
    omega
  · have hc := (exec_frame hu).count
    rw [State.slotCount_congr hs'] at hc
    rw [u.finish_slotCount]
    omega

/-- Settles O55, by what a step can be: only an Output adds a byte, and a waiting instruction is an Input. -/
theorem outputLogOnlyGrows : Obligations.OutputLogOnlyGrows := by
  refine ⟨fun s t h => ?_, fun i s t h hne => ?_⟩
  · rcases step_cases h with rfl | ⟨s', f, -, ho, rfl⟩ | ⟨i, s', u, -, ho, hu, rfl, hs, hi⟩
    · exact .inl s.load_frame.2
    · exact .inl ho
    · rw [u.finish_output]
      rcases (exec_frame hu).output with hout | ⟨c, b, rfl, hout⟩
      · exact .inl (hout.trans ho)
      · rcases hi with ⟨_, hinp⟩ | ⟨hw, w, hm, hd⟩
        · cases hinp
        · exact .inr ⟨⟨b, by rw [hout, ho]⟩, hs, hw, w, c, hm, hd⟩
  · rcases (exec_frame h).output with hout | ⟨c, -, hi, -⟩
    · exact absurd hout hne
    · exact ⟨c, hi⟩

/-! ### The exit status -/

theorem failExitCode_ne_zero (k : FaultKind) : Config.failExitCode k ≠ 0 := by
  unfold Config.failExitCode
  split
  · decide
  · assumption

/-- Settles O56, by the run status: a Faulted block has a record, whose code is not 0. -/
theorem exitStatusTellsSuccessFromFailure : Obligations.ExitStatusTellsSuccessFromFailure := by
  intro s hi
  have hrec := hi.record
  cases hs : s.status with
  | loading | running => simp [State.exitStatus, hs]
  | terminated => simp [State.exitStatus, hs]
  | faulted =>
    obtain ⟨r, hr⟩ := Option.isSome_iff_exists.1 (hrec.1 hs)
    have hne := failExitCode_ne_zero r.raised.kind
    simpa [State.exitStatus, hs, hr] using hne

end Sys2Proof.Machine
end

section
/-! Image load (20_memory.md R60 to R63; 70_reset_and_hazards.md R145): the assembled words, and each outcome of the
load of an image the host has placed. -/

namespace Sys2Proof.Machine

open Codec (setUBody setUBody_toNat)

/-! ### The word assembler -/

theorem zeroExtend_byte_toNat (b : Byte) : (b.zeroExtend 64).toNat = b.toNat :=
  BitVec.toNat_setWidth_of_le (by omega)

theorem append_toNat {m n : Nat} (v : BitVec m) (u : BitVec n) : (v ++ u).toNat = v.toNat * 2 ^ n + u.toNat := by
  rw [BitVec.toNat_append, ← Nat.shiftLeft_add_eq_or_of_lt u.isLt, Nat.shiftLeft_eq]

/-- Settles O18: each byte is inserted below the ones before it, at its weight. -/
theorem assembledWordIsBigEndian : Obligations.AssembledWordIsBigEndian := by
  intro b0 b1 b2 b3
  have l0 := b0.isLt
  have l1 := b1.isLt
  have l2 := b2.isLt
  have l3 := b3.isLt
  have v0 := zeroExtend_byte_toNat b0
  have v1 := zeroExtend_byte_toNat b1
  have v2 := zeroExtend_byte_toNat b2
  have v3 := zeroExtend_byte_toNat b3
  have h0 := setUBody_toNat (w := 8) (lsb := 24) (v := b0.zeroExtend 64) (word := 0) (high := 0) (by omega) rfl
    (by omega)
  have h1 := setUBody_toNat (w := 8) (lsb := 16) (v := b1.zeroExtend 64) (high := b0.toNat) (by omega)
    (by rw [h0, v0]; omega) (by omega)
  have h2 := setUBody_toNat (w := 8) (lsb := 8) (v := b2.zeroExtend 64) (high := b0.toNat * 2 ^ 8 + b1.toNat) (by omega)
    (by rw [h1, v1]) (by omega)
  have h3 := setUBody_toNat (w := 8) (lsb := 0) (v := b3.zeroExtend 64)
    (high := (b0.toNat * 2 ^ 8 + b1.toNat) * 2 ^ 8 + b2.toNat) (by omega) (by rw [h2, v2]) (by omega)
  rw [assembleWord, setU_byte _ _ _ (by omega), bind_ok, setU_byte _ _ _ (by omega), bind_ok,
    setU_byte _ _ _ (by omega), bind_ok, setU_byte _ _ _ (by omega), bind_ok]
  refine congrArg Except.ok (BitVec.eq_of_toNat_eq ?_)
  rw [BitVec.truncate_eq_setWidth, BitVec.toNat_setWidth, h3, v3, append_toNat, append_toNat, append_toNat]
  omega

/-- Word `k` of an image, most significant byte first (R60, R61). -/
def imageWord (bytes : List Byte) (k : Nat) : Word :=
  bytes.getD (4 * k) 0 ++ bytes.getD (4 * k + 1) 0 ++ bytes.getD (4 * k + 2) 0 ++ bytes.getD (4 * k + 3) 0

theorem imageWord_succ (b0 b1 b2 b3 : Byte) (rest : List Byte) (k : Nat) :
    imageWord (b0 :: b1 :: b2 :: b3 :: rest) (k + 1) = imageWord rest k := rfl

/-- Every image assembles, to its whole words in order. -/
theorem assembleWords_words : ∀ bytes : List Byte,
    ∃ ws, assembleWords bytes = .ok ws ∧ ∀ k < bytes.length / 4, ws.getD k 0 = imageWord bytes k
  | b0 :: b1 :: b2 :: b3 :: rest => by
    obtain ⟨ws, hws, hget⟩ := assembleWords_words rest
    refine ⟨imageWord (b0 :: b1 :: b2 :: b3 :: rest) 0 :: ws, ?_, fun k hk => ?_⟩
    · rw [assembleWords, assembledWordIsBigEndian, bind_ok, hws, bind_ok]
      rfl
    · cases k with
      | zero => rfl
      | succ k =>
        rw [List.getD_cons_succ, imageWord_succ]
        refine hget k ?_
        simp only [List.length_cons] at hk
        omega
  | [] | [_] | [_, _] | [_, _, _] => ⟨[], rfl, fun k hk => by simp at hk⟩

/-! ### The outcomes of the load -/

/-- The state a successful load leaves is the image loaded. -/
theorem imageLoaded_of_assembleWords {s : State} (hs : s.StoreInv) {bytes : List Byte} {ws : List Word}
    (hws : assembleWords bytes = .ok ws) (hlen : bytes.length / 4 < 2 ^ 32) :
    ImageLoaded bytes s { s.setSlot 0 (.mapped (.ofWords ws)) with status := .running } := by
  have hcount := assembleWords_length hws
  have hlen0 : (Segment.ofWords ws).len = BitVec.ofNat 32 (bytes.length / 4) :=
    congrArg (BitVec.ofNat 32) hcount
  refine ⟨rfl, rfl, rfl, rfl, fun _ => rfl, rfl, List.length_set, rfl, ⟨rfl, rfl, rfl, rfl⟩,
    fun _ => s.segment?_setSlot_other _, ?_, fun k hk => ?_⟩
  · exact (hs.setProgram_programLength (.ofWords ws)).trans hlen0
  · obtain ⟨ws', hws', hget⟩ := assembleWords_words bytes
    rw [hws] at hws'
    cases hws'
    have hnat : ∀ n ≤ bytes.length / 4, (BitVec.ofNat 32 n).toNat = n := fun n hn =>
      toNat_ofNat_of_lt (by omega)
    refine memRead_eq_ok.2 ⟨_, hs.setProgram_segment (.ofWords ws), ?_, ?_⟩
    · rw [hlen0, BitVec.lt_def, hnat k (by omega), hnat _ (Nat.le_refl _)]
      exact hk
    · rw [Segment.ofWords_get, hnat k (by omega), hget k hk]
      rfl

section
variable {s : State} {r : ImageAnswer} (hsrc : s.imageSource = some r)
include hsrc

theorem State.load_of_placed : s.load = s.settle (loadImage trailingBytesPolicy Config.canAllocate r s) := by
  rw [State.load, State.imageAnswer, hsrc, Option.getD_some]

theorem State.load_of_error {f : Raised} (h : loadImage trailingBytesPolicy Config.canAllocate r s = .error f) :
    FaultEntered f s s.load := by
  rw [State.load_of_placed hsrc, h]
  exact s.raiseFault_entered f

end

theorem loadImage_malformed {policy : TrailingPolicy} {bytes : List Byte} (can : Nat → Nat → Bool) (s : State)
    (hmod : bytes.length % 4 ≠ 0) (hp : policy = .fault) :
    loadImage policy can (.image bytes) s = .error (.malformedImage bytes.length) :=
  if_pos ⟨hmod, hp⟩

theorem loadImage_refused {policy : TrailingPolicy} {bytes : List Byte} {can : Nat → Nat → Bool} (s : State)
    (hp : ¬(bytes.length % 4 ≠ 0 ∧ policy = .fault))
    (h : 2 ^ 32 ≤ bytes.length / 4 ∨ can 0 (bytes.length / 4) = false) :
    loadImage policy can (.image bytes) s = .error (.allocationFailure (bytes.length / 4)) := by
  have hc : 2 ^ 32 - 1 < bytes.length / 4 ∨ can 0 (bytes.length / 4) = false := h.imp_left fun h => by omega
  rw [loadImage, if_neg hp, if_pos hc]

/-- The load of the whole words the store grants, from a state that has no fault record. -/
theorem State.load_granted {s : State} {bytes : List Byte} (hi : s.Inv) (hs : s.status = .loading)
    (hsrc : s.imageSource = some (.image bytes)) (hp : ¬(bytes.length % 4 ≠ 0 ∧ trailingBytesPolicy = .fault))
    (hlen : bytes.length / 4 < 2 ^ 32) (hc : Config.canAllocate 0 (bytes.length / 4) = true) :
    ImageLoaded bytes s s.load ∧ s.load.fault = none := by
  obtain ⟨ws, hws, -⟩ := assembleWords_words bytes
  have hload := (loadImage_eq_ok (s := s)).2 ⟨bytes, ws, rfl, hp, hlen, hc, hws, rfl⟩
  rw [State.load_of_placed hsrc, hload]
  exact ⟨imageLoaded_of_assembleWords hi.store hws hlen, hi.no_fault (by rw [hs]; decide)⟩

/-! ### The obligations -/

/-- Settles O19, by the capacity's answer. -/
theorem imageLoadFillsSegmentZero : Obligations.ImageLoadFillsSegmentZero := by
  intro s bytes hi hs hsrc hmod hlen
  have hp : ¬(bytes.length % 4 ≠ 0 ∧ trailingBytesPolicy = .fault) := fun h => h.1 hmod
  exact ⟨_, step_of_loading hs, State.load_granted hi hs hsrc hp hlen,
    fun hc => State.load_of_error hsrc (loadImage_refused s hp (.inr hc))⟩

/-- Settles O20, cause by cause: no image, too many words, and a trailing group under each policy. -/
theorem imageLoadFaultsInOrder : Obligations.ImageLoadFaultsInOrder := by
  refine ⟨fun s hi hs hsrc => ?_, fun s bytes _ hs hsrc hmod hlen => ?_, fun s bytes hi hs hsrc hmod => ?_⟩
  · have hload : FaultEntered .ioUnavailable s s.load := State.load_of_error hsrc rfl
    have hidle := hi.idle (hi.not_waiting (by rw [hs]; decide))
    refine ⟨_, step_of_loading hs, hload, ?_⟩
    rw [hload, hidle]
    rfl
  · exact ⟨_, step_of_loading hs, State.load_of_error hsrc (loadImage_refused s (fun h => h.1 hmod) (.inl hlen))⟩
  · have hfault (hp : trailingBytesPolicy = .fault) : FaultEntered (.malformedImage bytes.length) s s.load :=
      State.load_of_error hsrc (loadImage_malformed _ s hmod hp)
    refine ⟨_, step_of_loading hs, fun hnone => hfault (trailingBytesPolicy_default hnone), hfault, fun hdrop => ?_⟩
    have hp : ¬(bytes.length % 4 ≠ 0 ∧ trailingBytesPolicy = .fault) := fun h => by
      rw [hdrop] at h
      cases h.2
    exact ⟨fun h => State.load_of_error hsrc (loadImage_refused s hp h), State.load_granted hi hs hsrc hp⟩

end Sys2Proof.Machine
end
